-- ==== Sys2Proof/Word.lean ====
section
/-! DEFINITION. The word types of the block: every value the spec shifts, masks or truncates is a bit vector
(00_scope.md R19, R20); counts, sizes and intermediate values are naturals. -/

namespace Sys2Proof

/-- A character code, an attribute, a coordinate, a glyph row or a pixel value: 8 bits (00_scope.md R13). -/
abbrev Byte := BitVec 8

/-- A word of a port: 32 bits (00_scope.md R10). -/
abbrev Word := BitVec 32

/-- A physical line index as RASTERIZE carries it: 16 bits (00_scope.md R13). -/
abbrev Line := BitVec 16

end Sys2Proof
end

