-- ==== Sys2Proof/Config.lean ====
section
/-! DEFINITION. The configuration record (00_scope.md R13): the values fixed when the system is built or an instance
is constructed. Nothing here is opaque: the spec makes every open value a parameter, so a configuration is an argument
of the model, and a claim holds for every one (93_implementation_defined.md, treatment "parameter"). -/

namespace Sys2Proof

/-- One font table (00_scope.md R15; 20_memory.md R49): it covers the codes `first` to `first + count - 1`, and `data`
holds `count` glyphs of GH row bytes. -/
structure Font where
  /-- FIRST_f -/
  first : Nat
  /-- COUNT_f -/
  count : Nat
  /-- FONTDATA_f -/
  data  : List Byte
  deriving DecidableEq, Repr

/-- The construction parameters of one Screen instance (00_scope.md R13). -/
structure InstCfg where
  /-- START_i: first physical line of the band -/
  start       : Nat
  /-- HEIGHT_i: band height in physical lines -/
  height      : Nat
  /-- VB_i: vertical border thickness in lines, top and bottom each -/
  vb          : Nat
  /-- HRES_i: pixels emitted per owned line -/
  hres        : Nat
  /-- HB_i: horizontal border thickness in pixels, left and right each -/
  hb          : Nat
  /-- BORDER_PIXEL_i -/
  borderPixel : Byte := 0x00
  /-- INIT_FONT_i -/
  initFont    : Byte
  /-- INIT_ATTR_i -/
  initAttr    : Byte
  deriving DecidableEq, Repr

/-- The whole configuration (00_scope.md R13, R14). NUM_FONTS is the length of `fonts`, NI that of `insts`.
`attrFg` and `attrBg` are the total functions ATTR_FG and ATTR_BG of R16: `none` is the default decode through the
palette, `some t` the function whose value at attribute a is `t[a]` (256 entries; log 14). -/
structure Config where
  /-- GW: glyph width in pixels -/
  gw         : Nat := 8
  /-- GH: glyph height in scanlines -/
  gh         : Nat := 8
  /-- FONT[0..NUM_FONTS-1] -/
  fonts      : List Font
  /-- PALETTE: 16 pixel values; the default is PALETTE[k] = k -/
  palette    : List Byte := [0, 1, 2, 3, 4, 5, 6, 7, 8, 9, 10, 11, 12, 13, 14, 15]
  /-- ATTR_FG -/
  attrFg     : Option (List Byte) := none
  /-- ATTR_BG -/
  attrBg     : Option (List Byte) := none
  /-- BLINK_CYCLE: length of the blink cycle in frames -/
  blinkCycle : Nat := 32
  /-- the instances 0..NI-1 -/
  insts      : List InstCfg
  deriving DecidableEq, Repr

/-- Font 0 of EX1 (95_test_vectors.md §0): codes 0x20 to 0x22. -/
def Config.ex1Font0 : Font :=
  { first := 0x20, count := 3,
    data := [0x00, 0x00, 0x00, 0x00, 0x00, 0x00, 0x00, 0x00] ++
            [0x81, 0x42, 0x24, 0x18, 0x18, 0x24, 0x42, 0x81] ++
            [0xFF, 0x00, 0xFF, 0x00, 0xAA, 0x55, 0x0F, 0xF0] }

/-- Font 1 of EX1 (95_test_vectors.md §0): codes 0x41 and 0x42. -/
def Config.ex1Font1 : Font :=
  { first := 0x41, count := 2,
    data := [0x3C, 0x3C, 0x3C, 0x3C, 0x3C, 0x3C, 0x3C, 0x3C] ++
            [0xFF, 0xFF, 0xFF, 0xFF, 0xFF, 0xFF, 0xFF, 0xFF] }

/-- The configuration `State.reset` is constructed with: EX1 of 95_test_vectors.md, two instances on touching bands
and two fonts. DESIGN CHOICE (log 2): the spec leaves every one of these values to the configuration. -/
def Config.boot : Config :=
  { fonts := [Config.ex1Font0, Config.ex1Font1], blinkCycle := 4,
    insts :=
      [{ start := 10, height := 18, vb := 1, hres := 20, hb := 2, borderPixel := 0x0C, initFont := 0, initAttr := 0x1E },
       { start := 28, height := 8, vb := 0, hres := 16, hb := 0, borderPixel := 0x00, initFont := 1, initAttr := 0x07 }] }

end Sys2Proof
end

