-- ==== Sys2Proof/Machine/Geometry.lean ====
section
/-! DEFINITION. The derived geometry (00_scope.md R17) and the configuration well-formedness checks (00_scope.md R13
legal ranges, R18 checks WF1 to WF8). -/

namespace Sys2Proof

/-- NUM_FONTS (00_scope.md R13). -/
def Config.numFonts (c : Config) : Nat := c.fonts.length

/-- NI (00_scope.md R13, R14). -/
def Config.numInsts (c : Config) : Nat := c.insts.length

/-- COLS_i (00_scope.md R17). -/
def Config.cols (c : Config) (g : InstCfg) : Nat := (g.hres - 2 * g.hb) / c.gw

/-- ROWS_i (00_scope.md R17). -/
def Config.rows (c : Config) (g : InstCfg) : Nat := (g.height - 2 * g.vb) / c.gh

/-- WF1 (00_scope.md R18): the active width is positive and a whole number of glyphs. -/
abbrev Config.WF1 (c : Config) (g : InstCfg) : Prop :=
  2 * g.hb < g.hres ∧ (g.hres - 2 * g.hb) % c.gw = 0

/-- WF2 (00_scope.md R18): the active height is positive and a whole number of glyphs. -/
abbrev Config.WF2 (c : Config) (g : InstCfg) : Prop :=
  2 * g.vb < g.height ∧ (g.height - 2 * g.vb) % c.gh = 0

/-- WF3 (00_scope.md R18). -/
abbrev Config.WF3 (c : Config) (g : InstCfg) : Prop :=
  (1 ≤ c.cols g ∧ c.cols g ≤ 256) ∧ (1 ≤ c.rows g ∧ c.rows g ≤ 256)

/-- WF4 (00_scope.md R18): the band ends inside the display's line numbering. -/
abbrev InstCfg.WF4 (g : InstCfg) : Prop := g.start + g.height ≤ 65536

/-- The bands of two instances have no line in common (00_scope.md R18, WF5). -/
abbrev InstCfg.Disjoint (g h : InstCfg) : Prop :=
  g.start + g.height ≤ h.start ∨ h.start + h.height ≤ g.start

/-- WF5 (00_scope.md R18). -/
abbrev Config.WF5 (c : Config) : Prop := c.insts.Pairwise InstCfg.Disjoint

/-- WF6 (00_scope.md R18). -/
abbrev Config.WF6 (c : Config) (g : InstCfg) : Prop := g.initFont.toNat < c.numFonts

/-- WF7 (00_scope.md R18). -/
abbrev Config.WF7 (c : Config) : Prop :=
  (1 ≤ c.gw ∧ c.gw ≤ 8) ∧ (1 ≤ c.gh ∧ c.gh ≤ 255) ∧ 2 ≤ c.blinkCycle

/-- WF8 (00_scope.md R18). -/
abbrev Font.WF8 (f : Font) : Prop := 1 ≤ f.count ∧ f.first + f.count ≤ 256

/-- The legal ranges of 00_scope.md R13 for one instance that no check of R18 repeats. -/
abbrev InstCfg.Ranges (g : InstCfg) : Prop :=
  g.start ≤ 65535 ∧ 1 ≤ g.height ∧ (1 ≤ g.hres ∧ g.hres ≤ 65535)

/-- FONTDATA_f is COUNT_f x GH bytes (00_scope.md R13; 20_memory.md R49). -/
abbrev Config.DataFits (c : Config) (f : Font) : Prop := f.data.length = f.count * c.gh

/-- A function on all 8-bit attributes has 256 values (00_scope.md R16). -/
def totalTable : Option (List Byte) → Bool
  | none => true
  | some t => t.length == 256

/-- The legal ranges of 00_scope.md R13 for the global parameters that no check of R18 repeats (log 11). -/
abbrev Config.Ranges (c : Config) : Prop :=
  (1 ≤ c.numInsts ∧ c.numInsts ≤ 16) ∧ (1 ≤ c.numFonts ∧ c.numFonts ≤ 256) ∧ c.blinkCycle ≤ 4294967295 ∧
    c.palette.length = 16 ∧ totalTable c.attrFg = true ∧ totalTable c.attrBg = true

/-- The checks on one instance. -/
abbrev Config.InstWf (c : Config) (g : InstCfg) : Prop :=
  c.WF1 g ∧ c.WF2 g ∧ c.WF3 g ∧ g.WF4 ∧ c.WF6 g ∧ g.Ranges

/-- A configuration is admitted (00_scope.md R18, with the legal ranges of R13, log 11). -/
abbrev Config.Wf (c : Config) : Prop :=
  c.WF7 ∧ c.Ranges ∧ c.WF5 ∧ (∀ f ∈ c.fonts, f.WF8 ∧ c.DataFits f) ∧ (∀ g ∈ c.insts, c.InstWf g)

end Sys2Proof
end

