-- ==== Sys2Proof/Syntax.lean ====
section
/-! DEFINITION. The commands of the RSTR command set, version 1 (30_encoding.md R67): one constructor per row of the
opcode table, and the ports they arrive on (00_scope.md R10). -/

namespace Sys2Proof

/-- A port: the command port of instance i, or the one raster port (00_scope.md R10). -/
inductive Port where
  | cmd (i : Nat)
  | raster
  deriving DecidableEq, Repr

/-- One command with its operands (30_encoding.md R67 to R75). A text is the list of its character codes, first
character first (00_scope.md R23). -/
inductive Instr where
  /-- CLEAR (42_console.md R114) -/
  | clear
  /-- SET_FONT V (42_console.md R115) -/
  | setFont (v : Byte)
  /-- SET_ATTR V (42_console.md R116) -/
  | setAttr (v : Byte)
  /-- SET_CURSOR X, Y (42_console.md R117) -/
  | setCursor (x y : Byte)
  /-- SHOW_CURSOR (42_console.md R118) -/
  | showCursor
  /-- HIDE_CURSOR (42_console.md R119) -/
  | hideCursor
  /-- PRINT text (42_console.md R120) -/
  | print (t : List Byte)
  /-- PRINT_AT X, Y, text (42_console.md R122) -/
  | printAt (x y : Byte) (t : List Byte)
  /-- PRINT_RIGHT Y, text (42_console.md R124) -/
  | printRight (y : Byte) (t : List Byte)
  /-- PRINT_CENTER Y, text (42_console.md R126) -/
  | printCenter (y : Byte) (t : List Byte)
  /-- RASTERIZE INST, LINE, RATIO (41_rasterize.md R96) -/
  | rasterize (inst : BitVec 4) (line : Line) (ratio : Byte)
  /-- FRAME_TICK (43_frame_blink.md R130) -/
  | frameTick
  deriving DecidableEq, Repr

/-- The text operand of a format-T command; the other commands have none (30_encoding.md R72). -/
def Instr.text : Instr → List Byte
  | .print t => t
  | .printAt _ _ t => t
  | .printRight _ t => t
  | .printCenter _ t => t
  | .clear => []
  | .setFont _ => []
  | .setAttr _ => []
  | .setCursor _ _ => []
  | .showCursor => []
  | .hideCursor => []
  | .rasterize _ _ _ => []
  | .frameTick => []

/-- The commands of the raster port (30_encoding.md R68); every other command is a console command. -/
def Instr.isRaster : Instr → Bool
  | .rasterize _ _ _ => true
  | .frameTick => true
  | .clear => false
  | .setFont _ => false
  | .setAttr _ => false
  | .setCursor _ _ => false
  | .showCursor => false
  | .hideCursor => false
  | .print _ => false
  | .printAt _ _ _ => false
  | .printRight _ _ => false
  | .printCenter _ _ => false

end Sys2Proof
end

