-- ==== Sys2Proof/WellFormed.lean ====
section
/-! DEFINITION. When a command is well formed: it has an encoding (its text fits the 12-bit length field), its values
name things the configuration has, and it stands on its kind of port. The encoding admits every value of every other
field (30_encoding.md R75). -/

namespace Sys2Proof

/-- A text fits format T: 0 to 4095 characters (30_encoding.md R72). -/
abbrev Instr.TextFits (i : Instr) : Prop := i.text.length ≤ 4095

/-- The value checks of the decoder (30_encoding.md R81): the font exists, the instance exists. -/
def Instr.valuesExist (c : Config) : Instr → Bool
  | .setFont v => decide (v.toNat < c.numFonts)
  | .rasterize inst _ _ => decide (inst.toNat < c.numInsts)
  | .clear => true
  | .setAttr _ => true
  | .setCursor _ _ => true
  | .showCursor => true
  | .hideCursor => true
  | .print _ => true
  | .printAt _ _ _ => true
  | .printRight _ _ => true
  | .printCenter _ _ => true
  | .frameTick => true

/-- The command stands on its kind of port (30_encoding.md R68). -/
def Instr.onItsPort (i : Instr) : Port → Bool
  | .cmd _ => !i.isRaster
  | .raster => i.isRaster

/-- A well-formed command of configuration `c` on port `p`. -/
abbrev Instr.Wf (c : Config) (p : Port) (i : Instr) : Prop :=
  i.TextFits ∧ i.valuesExist c = true ∧ i.onItsPort p = true

end Sys2Proof
end

