-- ==== Sys2Proof/Decode.lean ====
section
/-! DEFINITION. The decoder of 30_encoding.md R78, total on every first word and on every port, and the encoder of the
same tables (30_encoding.md R67 to R74, R84). -/

namespace Sys2Proof

/-! ## Fields of the command word -/

/-- OP = w[31:28] (30_encoding.md R67). -/
def opOf (w : Word) : Nat := (w.extractLsb' 28 4).toNat

/-- N = w[27:16], the text length of format T (30_encoding.md R72). -/
def fieldN (w : Word) : Nat := (w.extractLsb' 16 12).toNat

/-- Y = w[15:8] (30_encoding.md R71, R72). -/
def fieldY (w : Word) : Byte := w.extractLsb' 8 8

/-- X = w[7:0] (30_encoding.md R71, R72). -/
def fieldX (w : Word) : Byte := w.extractLsb' 0 8

/-- V = w[7:0] (30_encoding.md R70). -/
def fieldV (w : Word) : Byte := w.extractLsb' 0 8

/-- INST = w[27:24] (30_encoding.md R73). -/
def fieldInst (w : Word) : BitVec 4 := w.extractLsb' 24 4

/-- RATIO = w[23:16] (30_encoding.md R73). -/
def fieldRatio (w : Word) : Byte := w.extractLsb' 16 8

/-- LINE = w[15:0] (30_encoding.md R73). -/
def fieldLine (w : Word) : Line := w.extractLsb' 0 16

/-! ## Command length and text (30_encoding.md R74, R76) -/

/-- Format T: the opcodes 0x7 to 0xA (30_encoding.md R67). -/
def isTextOp (w : Word) : Bool := decide (7 ≤ opOf w) && decide (opOf w ≤ 10)

/-- The number of data words a command has, told from its first word alone (30_encoding.md R76). -/
def dataWords (w : Word) : Nat := if isTextOp w then (fieldN w + 3) / 4 else 0

/-- The four bytes of a data word, lowest byte first (20_memory.md R51). -/
def wordBytes (d : Word) : List Byte :=
  [d.extractLsb' 0 8, d.extractLsb' 8 8, d.extractLsb' 16 8, d.extractLsb' 24 8]

/-- The text of `n` characters in data words `ds`: character k is byte k mod 4 of word k div 4, and the bytes after
the last character are ignored (30_encoding.md R74). -/
def textOf (ds : List Word) (n : Nat) : List Byte := (ds.flatMap wordBytes).take n

/-! ## Decoding -/

/-- Why the decoder refuses a command (60_exceptions.md R139, the reasons raised by the decoder). -/
inductive DecodeError where
  | reservedOpcode
  | wrongPort
  | nonzeroReservedField
  | noSuchFont
  | noSuchInstance
  deriving DecidableEq, Repr

/-- Decode(port, w) of 30_encoding.md R78, `t` standing for text(N): the checks in the order written there, which is
the order of the reported reason (60_exceptions.md R145). -/
def decodeFirst (c : Config) (p : Port) (w : Word) (t : List Byte) : Except DecodeError Instr :=
  if opOf w = 0 ∨ 13 ≤ opOf w then .error .reservedOpcode
  else if opOf w ≤ 10 ∧ p = .raster then .error .wrongPort
  else if 11 ≤ opOf w ∧ p ≠ .raster then .error .wrongPort
  else
    match opOf w with
    | 1 => if w.extractLsb' 0 28 ≠ 0 then .error .nonzeroReservedField else .ok .clear
    | 2 =>
      if w.extractLsb' 8 20 ≠ 0 then .error .nonzeroReservedField
      else if c.numFonts ≤ (fieldV w).toNat then .error .noSuchFont
      else .ok (.setFont (fieldV w))
    | 3 => if w.extractLsb' 8 20 ≠ 0 then .error .nonzeroReservedField else .ok (.setAttr (fieldV w))
    | 4 =>
      if w.extractLsb' 16 12 ≠ 0 then .error .nonzeroReservedField
      else .ok (.setCursor (fieldX w) (fieldY w))
    | 5 => if w.extractLsb' 0 28 ≠ 0 then .error .nonzeroReservedField else .ok .showCursor
    | 6 => if w.extractLsb' 0 28 ≠ 0 then .error .nonzeroReservedField else .ok .hideCursor
    | 7 => if w.extractLsb' 0 16 ≠ 0 then .error .nonzeroReservedField else .ok (.print t)
    | 8 => .ok (.printAt (fieldX w) (fieldY w) t)
    | 9 => if fieldX w ≠ 0 then .error .nonzeroReservedField else .ok (.printRight (fieldY w) t)
    | 10 => if fieldX w ≠ 0 then .error .nonzeroReservedField else .ok (.printCenter (fieldY w) t)
    | 11 =>
      if c.numInsts ≤ (fieldInst w).toNat then .error .noSuchInstance
      else .ok (.rasterize (fieldInst w) (fieldLine w) (fieldRatio w))
    | 12 => if w.extractLsb' 0 28 ≠ 0 then .error .nonzeroReservedField else .ok .frameTick
    | _ => .error .reservedOpcode

/-- What the decoder reads from the words a port holds. -/
inductive Decoded where
  /-- a whole command, and the words after it -/
  | instr (i : Instr) (rest : List Word)
  /-- a refused command, and the words after it: its data words are consumed with it (30_encoding.md R78) -/
  | refuse (e : DecodeError) (rest : List Word)
  /-- no command yet: no word, or a data word of an accepted command is still to come (30_encoding.md R76) -/
  | incomplete
  deriving DecidableEq, Repr

/-- The next command of a port, from the words it holds, oldest first (30_encoding.md R76, R78). A refusal is decided on
the first word alone, so it does not wait for the data words (DEDUCED, log 7). -/
def decode (c : Config) (p : Port) : List Word → Decoded
  | [] => .incomplete
  | w :: rest =>
    match decodeFirst c p w (textOf (rest.take (dataWords w)) (fieldN w)) with
    | .error e => .refuse e (rest.drop (dataWords w))
    | .ok i => if rest.length < dataWords w then .incomplete else .instr i (rest.drop (dataWords w))

/-! ## Encoding -/

/-- Four characters as one data word, the first in the low byte (30_encoding.md R74). -/
def packWord (a b c d : Byte) : Word := d ++ c ++ b ++ a

/-- The data words of a text, with zero padding (30_encoding.md R74, R84). -/
def packText : List Byte → List Word
  | [] => []
  | [a] => [packWord a 0 0 0]
  | [a, b] => [packWord a b 0 0]
  | [a, b, c] => [packWord a b c 0]
  | a :: b :: c :: d :: rest => packWord a b c d :: packText rest

/-- The command word of format T (30_encoding.md R72). -/
def textWord (op : BitVec 4) (n : Nat) (y x : Byte) : Word := op ++ BitVec.ofNat 12 n ++ y ++ x

/-- The words of a command (30_encoding.md R69 to R74, R84). -/
def encode : Instr → List Word
  | .clear => [0x1#4 ++ 0#28]
  | .setFont v => [0x2#4 ++ 0#20 ++ v]
  | .setAttr v => [0x3#4 ++ 0#20 ++ v]
  | .setCursor x y => [0x4#4 ++ 0#12 ++ y ++ x]
  | .showCursor => [0x5#4 ++ 0#28]
  | .hideCursor => [0x6#4 ++ 0#28]
  | .print t => textWord 0x7 t.length 0 0 :: packText t
  | .printAt x y t => textWord 0x8 t.length y x :: packText t
  | .printRight y t => textWord 0x9 t.length y 0 :: packText t
  | .printCenter y t => textWord 0xA t.length y 0 :: packText t
  | .rasterize inst line ratio => [0xB#4 ++ inst ++ ratio ++ line]
  | .frameTick => [0xC#4 ++ 0#28]

/-! ## The opcode table's numbering of an instruction's bits -/

/-- The words of the instruction whose bits are `w`, bit 0 the least significant bit of the first word, every bit from
`nbits` up being 0: as many as the first word says the command has. -/
def tableWords (nbits w : Nat) : List Word :=
  let bits := w % 2 ^ nbits
  let first := BitVec.ofNat 32 bits
  first :: (List.range (dataWords first)).map (fun k => BitVec.ofNat 32 (bits >>> (32 * (k + 1))))

/-- The port that accepts an opcode: the raster port for 0xB and 0xC, command port 0 for the others
(30_encoding.md R68). -/
def portOf (w : Word) : Port := if opOf w = 11 ∨ opOf w = 12 then .raster else .cmd 0

/-- The instruction the decoder reads from those words, on the port that accepts the opcode, with the configuration
`State.reset` is constructed with. -/
def decodeTableWord (nbits w : Nat) : Option Instr :=
  match decode Config.boot (portOf (BitVec.ofNat 32 (w % 2 ^ nbits))) (tableWords nbits w) with
  | .instr i _ => some i
  | .refuse _ _ => none
  | .incomplete => none

end Sys2Proof
end

