-- ==== Sys2Proof/Machine/Memory.lean ====
section
/-! DEFINITION. A buffer plane as plain data: a list of (address, byte) cells in one canonical form, so that equal
planes are equal lists. The address of a cell is its linear index (20_memory.md R48; log 16). -/

namespace Sys2Proof.Machine

/-- One buffer plane (10_state.md R32, R33): addresses strictly rising, no entry equal to what an unlisted address
reads as. -/
abbrev Memory := List Host.Cell

/-- What an address nothing has written reads as. DESIGN CHOICE (log 1): 70_reset_and_hazards.md R156 leaves every cell
after power-on unspecified. -/
def Memory.unlisted : Byte := 0x00

/-- The byte at an address. -/
def Memory.read : Memory → Nat → Byte
  | [], _ => Memory.unlisted
  | (k, v) :: t, a => if k = a then v else Memory.read t a

/-- The plane with one byte changed; writing what an unlisted address reads as removes the entry. -/
def Memory.write : Memory → Nat → Byte → Memory
  | [], a, v => if v = Memory.unlisted then [] else [(a, v)]
  | (k, u) :: t, a, v =>
    if a < k then (if v = Memory.unlisted then (k, u) :: t else (a, v) :: (k, u) :: t)
    else if a = k then (if v = Memory.unlisted then t else (a, v) :: t)
    else (k, u) :: Memory.write t a v

/-- The canonical form. -/
abbrev Memory.Wf (m : Memory) : Prop :=
  m.Pairwise (fun x y => x.1 < y.1) ∧ ∀ x ∈ m, x.2 ≠ Memory.unlisted

/-- Every listed address is below `n`. -/
abbrev Memory.Below (m : Memory) (n : Nat) : Prop := ∀ x ∈ m, x.1 < n

/-- The plane of `n` cells that holds `draw k` at each address k (70_reset_and_hazards.md R156). -/
def Memory.ofDraw (n : Nat) (draw : Nat → Byte) : Memory :=
  (List.range n).foldl (fun m k => Memory.write m k (draw k)) []

end Sys2Proof.Machine
end

