-- ==== Sys2Proof/Machine/State.lean ====
section
/-! DEFINITION. The state of the system (10_state.md R28) as plain data, the reasons a step can stop, and the state
after power-on (70_reset_and_hazards.md R155, R156). -/

namespace Sys2Proof.Machine

/-- One atomic micro-step of a console command (20_memory.md R57), as 42_console.md gives them. Column and row operands
are naturals: PRINT_RIGHT of an empty text positions at column COLS before clamping (42_console.md R124). -/
inductive Micro where
  /-- CellWrite(r, c, SPACE_CODE, DEFATTR), a micro-step of CLEAR (42_console.md R114) -/
  | clearCell (r c : Nat)
  /-- (CURX, CURY) <- (0, 0), the last micro-step of CLEAR (42_console.md R114) -/
  | home
  /-- SetCursor(x, y), clamped (42_console.md R112) -/
  | setCursor (x y : Nat)
  /-- PutChar(ch) (42_console.md R113) -/
  | putChar (ch : Byte)
  /-- FONTSEL <- v (42_console.md R115) -/
  | setFont (v : Byte)
  /-- DEFATTR <- v (42_console.md R116) -/
  | setAttr (v : Byte)
  /-- CURVIS <- 1 (42_console.md R118) -/
  | showCursor
  /-- CURVIS <- 0 (42_console.md R119) -/
  | hideCursor
  deriving DecidableEq, Repr

/-- The state of one Screen instance and its command port (10_state.md R28). -/
structure Screen where
  /-- CHARS_i (10_state.md R32), by linear index -/
  chars   : Memory
  /-- ATTRS_i (10_state.md R33), by linear index -/
  attrs   : Memory
  /-- CURX_i (10_state.md R35) -/
  curx    : Byte
  /-- CURY_i (10_state.md R36) -/
  cury    : Byte
  /-- CURVIS_i, true = visible (10_state.md R38) -/
  curvis  : Bool
  /-- DEFATTR_i (10_state.md R39) -/
  defattr : Byte
  /-- FONTSEL_i (10_state.md R40) -/
  fontsel : Byte
  /-- the words the command port has received and not yet taken, oldest first (20_memory.md R47; 30_encoding.md R76) -/
  rx      : List Word
  /-- the command in progress: its micro-steps not yet performed (10_state.md R45) -/
  busy    : List Micro
  deriving DecidableEq, Repr

/-- The layout metadata of a RASTERIZE response (30_encoding.md R83; 41_rasterize.md R98). -/
structure RasterInfo where
  /-- OWNED -/
  owned       : Bool
  /-- REPEAT -/
  rep         : Byte
  /-- PIXEL_COUNT -/
  pixelCount  : BitVec 16
  /-- START_OFFSET -/
  startOffset : BitVec 16
  deriving DecidableEq, Repr

/-- A RASTERIZE response: the metadata and the pixels, pixel 0 first (30_encoding.md R83). -/
structure Response where
  info   : RasterInfo
  pixels : List Byte
  deriving DecidableEq, Repr

/-- One move of the host still to come (00_scope.md R9, R11; log 4). -/
inductive Input where
  /-- a word arrives at a port -/
  | send (p : Port) (w : Word)
  /-- the command port of instance i takes its next atomic step -/
  | serve (i : Nat)
  deriving DecidableEq, Repr

/-- The state of the system (10_state.md R28), with the configuration that is a parameter of every step (log 2) and the
host's moves still to come (log 4). -/
structure State where
  /-- the configuration, fixed at construction (10_state.md R28, R42) -/
  cfg       : Config
  /-- FC, the frame counter (10_state.md R41) -/
  fc        : BitVec 32
  /-- the instances 0..NI-1 -/
  screens   : List Screen
  /-- the raster port's request words not yet performed, oldest first (20_memory.md R47; 60_exceptions.md R144) -/
  rasterRx  : List Word
  /-- the responses the raster port has emitted, oldest first (00_scope.md R12, R22); no rule reads them -/
  responses : List Response
  /-- the model's own: the port the instruction now executed came from -/
  active    : Port
  /-- the model's own: the host's moves still to come, oldest first -/
  inputs    : List Input
  deriving DecidableEq, Repr

/-- Why the machine would stop with a fault. The block raises none (60_exceptions.md R138): both reasons are the model's
own guards against an index the spec says does not exist, and no state that meets `State.Inv` raises one (log 10). -/
inductive Fault where
  /-- raised by a cell write whose row or column is outside the buffer (10_state.md R37, 20_memory.md R56); safe -/
  | bufferOutOfRange
  /-- raised by RASTERIZE of an active line when FONTSEL names no font table (10_state.md R40); safe -/
  | fontOutOfRange
  deriving DecidableEq, Repr

/-- Why the model gives an input no meaning (60_exceptions.md R139); the run stays refused (log 3). -/
inductive Refusal where
  /-- an instruction whose arm of exec has no meaning yet; raised by exec; safe -/
  | notModelled (mnemonic : String)
  /-- RESERVED_OPCODE, raised by the decoder (30_encoding.md R79); safe -/
  | reservedOpcode
  /-- WRONG_PORT, raised by the decoder, and by a meaning run for the other kind of port (60_exceptions.md R140); safe -/
  | wrongPort
  /-- NONZERO_RESERVED_FIELD, raised by the decoder (30_encoding.md R80); safe -/
  | nonzeroReservedField
  /-- NO_SUCH_FONT, raised by the decoder and by SET_FONT (30_encoding.md R81); safe -/
  | noSuchFont
  /-- NO_SUCH_INSTANCE, raised by the decoder and by RASTERIZE (30_encoding.md R81); safe -/
  | noSuchInstance
  /-- ILL_FORMED_CONFIG, raised by construction and by a step of a machine whose configuration is not admitted
  (00_scope.md R18); safe -/
  | illFormedConfig
  /-- the model's own: a move of the host names a command port that does not exist (log 15); safe -/
  | noSuchPort
  deriving DecidableEq, Repr

/-- One instance after construction (70_reset_and_hazards.md R155), its buffer planes as drawn (R156). -/
def Screen.powerOn (g : InstCfg) (chars attrs : Memory) : Screen :=
  { chars := chars, attrs := attrs, curx := 0, cury := 0, curvis := false, defattr := g.initAttr, fontsel := g.initFont,
    rx := [], busy := [] }

/-- The state after power-on from configuration `c` (70_reset_and_hazards.md R155). Cell k of instance i holds the
character `drawChars i k` and the attribute `drawAttrs i k`: R156 leaves them unspecified, so a claim about this state is
a claim for every draw. -/
def State.powerOn (c : Config) (drawChars drawAttrs : Nat → Nat → Byte) : State :=
  { cfg := c, fc := 0,
    screens := c.insts.zipIdx.map fun gi =>
      Screen.powerOn gi.1 (Memory.ofDraw (c.rows gi.1 * c.cols gi.1) (drawChars gi.2))
        (Memory.ofDraw (c.rows gi.1 * c.cols gi.1) (drawAttrs gi.2)),
    rasterRx := [], responses := [], active := .raster, inputs := [] }

/-- The machine right after reset: power-on from the configuration `Config.boot` (log 2) with every buffer cell drawn as
the byte an unlisted address reads as (log 1), nothing sent yet. -/
def State.reset : State := State.powerOn Config.boot (fun _ _ => Memory.unlisted) (fun _ _ => Memory.unlisted)

end Sys2Proof.Machine
end

