-- ==== Sys2Proof/Machine/Flags.lean ====
section
/-! DEFINITION. The block stores no flags (10_state.md R31). What a rule tests in their place is computed here: the blink
phase (43_frame_blink.md R132), the cursor state (R133) and the cursor test of the pixel mux (41_rasterize.md R107). -/

namespace Sys2Proof.Machine

/-- BlinkOn(FC) (43_frame_blink.md R132). -/
def blinkOn (c : Config) (fc : BitVec 32) : Bool := decide (fc.toNat % c.blinkCycle < c.blinkCycle / 2)

/-- The three states of the cursor state machine, derived and not stored (43_frame_blink.md R133). -/
inductive CursorPhase where
  | hidden
  | visibleOn
  | visibleOff
  deriving DecidableEq, Repr

/-- The cursor state of an instance (43_frame_blink.md R133). -/
def cursorPhase (c : Config) (scr : Screen) (fc : BitVec 32) : CursorPhase :=
  if scr.curvis then (if blinkOn c fc then .visibleOn else .visibleOff) else .hidden

/-- CursorHere(i, row, col) (41_rasterize.md R107). -/
def cursorHere (c : Config) (scr : Screen) (fc : BitVec 32) (row col : Nat) : Bool :=
  scr.curvis && decide (scr.cury.toNat = row) && decide (scr.curx.toNat = col) && blinkOn c fc

end Sys2Proof.Machine
end

