-- ==== Sys2Proof/Machine/Operands.lean ====
section
/-! DEFINITION. The operand forms: clamped positions (42_console.md R112), the placement of aligned text (R124, R126),
the micro-step lists of the text commands, and the response words of RASTERIZE (30_encoding.md R83). -/

namespace Sys2Proof.Machine

/-- SPACE_CODE (00_scope.md R13; 42_console.md R114). -/
def spaceCode : Byte := 0x20

/-- ClampX(x) (42_console.md R112). -/
def clampX (c : Config) (g : InstCfg) (x : Nat) : Nat := min x (c.cols g - 1)

/-- ClampY(y) (42_console.md R112). -/
def clampY (c : Config) (g : InstCfg) (y : Nat) : Nat := min y (c.rows g - 1)

/-- The text PRINT_RIGHT writes: truncated from the left to the row width (42_console.md R124). -/
def rightText (cols : Nat) (t : List Byte) : List Byte :=
  if cols < t.length then t.drop (t.length - cols) else t

/-- The text PRINT_CENTER writes: d div 2 characters dropped on the left, the rest of the excess on the right
(42_console.md R126). -/
def centerText (cols : Nat) (t : List Byte) : List Byte :=
  if cols < t.length then (t.drop ((t.length - cols) / 2)).take cols else t

/-- The starting column of PRINT_RIGHT, before clamping (42_console.md R124). -/
def rightStart (cols : Nat) (t : List Byte) : Nat := cols - (rightText cols t).length

/-- The starting column of PRINT_CENTER (42_console.md R126). -/
def centerStart (cols : Nat) (t : List Byte) : Nat := (cols - (centerText cols t).length) / 2

/-- The micro-steps of PRINT (42_console.md R120): one PutChar per character, whatever its code (R121). -/
def printMicros (t : List Byte) : List Micro := t.map .putChar

/-- The micro-steps of PRINT_AT (42_console.md R122). -/
def printAtMicros (x y : Nat) (t : List Byte) : List Micro := .setCursor x y :: printMicros t

/-- The micro-steps of PRINT_RIGHT (42_console.md R124). -/
def printRightMicros (c : Config) (g : InstCfg) (y : Nat) (t : List Byte) : List Micro :=
  printAtMicros (rightStart (c.cols g) t) y (rightText (c.cols g) t)

/-- The micro-steps of PRINT_CENTER (42_console.md R126). -/
def printCenterMicros (c : Config) (g : InstCfg) (y : Nat) (t : List Byte) : List Micro :=
  printAtMicros (centerStart (c.cols g) t) y (centerText (c.cols g) t)

/-- The micro-steps of CLEAR: every cell, row by row, then the cursor (42_console.md R114). -/
def clearMicros (c : Config) (g : InstCfg) : List Micro :=
  (List.range (c.rows g)).flatMap (fun r => (List.range (c.cols g)).map (.clearCell r)) ++ [.home]

/-- The micro-steps of a console command on instance `g`, in list order (20_memory.md R57, 42_console.md R114 to R126);
the raster-port commands have none, each being one atomic step (20_memory.md R58). -/
def microsOf (c : Config) (g : InstCfg) : Instr → List Micro
  | .clear => clearMicros c g
  | .setFont v => [.setFont v]
  | .setAttr v => [.setAttr v]
  | .setCursor x y => [.setCursor x.toNat y.toNat]
  | .showCursor => [.showCursor]
  | .hideCursor => [.hideCursor]
  | .print t => printMicros t
  | .printAt x y t => printAtMicros x.toNat y.toNat t
  | .printRight y t => printRightMicros c g y.toNat t
  | .printCenter y t => printCenterMicros c g y.toNat t
  | .rasterize _ _ _ => []
  | .frameTick => []

/-- REPEAT = max(RATIO, 1) (41_rasterize.md R98). -/
def repeatOf (ratio : Byte) : Byte := if ratio = 0 then 1 else ratio

/-- RI0, the first information word of a response (30_encoding.md R83). -/
def RasterInfo.word0 (i : RasterInfo) : Word := BitVec.ofBool i.owned ++ 0#7 ++ i.rep ++ i.pixelCount

/-- RI1, the second information word of a response (30_encoding.md R83). -/
def RasterInfo.word1 (i : RasterInfo) : Word := 0#16 ++ i.startOffset

end Sys2Proof.Machine
end

