-- ==== Sys2Proof/Machine/Ops.lean ====
section
/-! DEFINITION. The named operations every meaning is written over: access to one instance, one whole cell
(20_memory.md R52), one micro-step, the command in progress of a port, and construction. There is no operation that takes an
exception or returns from one: the block raises none (60_exceptions.md R138, R146). -/

namespace Sys2Proof.Machine

/-! ## Instances -/

/-- Instance i: its construction parameters and its state. -/
def State.instAt (s : State) (i : Nat) : Option (InstCfg × Screen) :=
  match s.cfg.insts[i]?, s.screens[i]? with
  | some g, some scr => some (g, scr)
  | some _, none => none
  | none, _ => none

/-- The state with instance i's state replaced. -/
def State.setScreen (s : State) (i : Nat) (scr : Screen) : State := { s with screens := s.screens.set i scr }

/-! ## Cells (20_memory.md R48, R52, R61) -/

/-- The linear index of the cell at row r, column k (20_memory.md R48). -/
def cellIndex (c : Config) (g : InstCfg) (r k : Nat) : Nat := r * c.cols g + k

/-- CellRead(r, c): character and attribute, one access (20_memory.md R52). -/
def cellRead (c : Config) (g : InstCfg) (scr : Screen) (r k : Nat) : Byte × Byte :=
  (scr.chars.read (cellIndex c g r k), scr.attrs.read (cellIndex c g r k))

/-- CellWrite(r, c, ch, at): both planes in one action (00_scope.md R21, 10_state.md R34); none outside the buffer. -/
def cellWrite (c : Config) (g : InstCfg) (scr : Screen) (r k : Nat) (ch att : Byte) : Option Screen :=
  if r < c.rows g ∧ k < c.cols g then
    some { scr with chars := scr.chars.write (cellIndex c g r k) ch, attrs := scr.attrs.write (cellIndex c g r k) att }
  else none

/-! ## Micro-steps -/

/-- SetCursor(x, y): both coordinates clamped and written in one update (42_console.md R112). -/
def setCursorClamped (c : Config) (g : InstCfg) (scr : Screen) (x y : Nat) : Screen :=
  { scr with curx := BitVec.ofNat 8 (clampX c g x), cury := BitVec.ofNat 8 (clampY c g y) }

/-- The cursor after a character: next column, then next row, then the top row (42_console.md R113). -/
def advanceCursor (c : Config) (g : InstCfg) (scr : Screen) : Screen :=
  if scr.curx.toNat + 1 < c.cols g then { scr with curx := scr.curx + 1 }
  else if scr.cury.toNat + 1 < c.rows g then { scr with curx := 0, cury := scr.cury + 1 }
  else { scr with curx := 0, cury := 0 }

/-- PutChar(ch): the cell at the cursor with the default attribute, then the cursor, in one update
(42_console.md R113). -/
def putChar (c : Config) (g : InstCfg) (scr : Screen) (ch : Byte) : Option Screen :=
  (cellWrite c g scr scr.cury.toNat scr.curx.toNat ch scr.defattr).map (advanceCursor c g)

/-- One atomic micro-step (20_memory.md R57); none where it would write outside the buffer. -/
def perform (c : Config) (g : InstCfg) (scr : Screen) : Micro → Option Screen
  | .clearCell r k => cellWrite c g scr r k spaceCode scr.defattr
  | .home => some { scr with curx := 0, cury := 0 }
  | .setCursor x y => some (setCursorClamped c g scr x y)
  | .putChar ch => putChar c g scr ch
  | .setFont v => some { scr with fontsel := v }
  | .setAttr v => some { scr with defattr := v }
  | .showCursor => some { scr with curvis := true }
  | .hideCursor => some { scr with curvis := false }

/-- A list of micro-steps performed in list order with no other agent between them (20_memory.md R57). -/
def performAll (c : Config) (g : InstCfg) : List Micro → Screen → Option Screen
  | [], scr => some scr
  | m :: ms, scr =>
    match perform c g scr m with
    | none => none
    | some scr' => performAll c g ms scr'

/-! ## The command in progress -/

/-- Performs the first of the micro-steps and leaves the others as the command in progress of port i (10_state.md R45;
20_memory.md R57). An empty list performs nothing. -/
def State.runMicros (s : State) (i : Nat) (g : InstCfg) (scr : Screen) : List Micro → Host.Outcome State Fault Refusal
  | [] => .next (s.setScreen i { scr with busy := [] })
  | m :: ms =>
    match perform s.cfg g scr m with
    | none => .fault .bufferOutOfRange
    | some scr' => .next (s.setScreen i { scr' with busy := ms })

/-- A console command acts on the instance whose port received it; on the raster port it has no meaning
(30_encoding.md R68, 60_exceptions.md R140). -/
def State.onPort (s : State) (k : Nat → InstCfg → Screen → Host.Outcome State Fault Refusal) :
    Host.Outcome State Fault Refusal :=
  match s.active with
  | .raster => .refused .wrongPort
  | .cmd i =>
    match s.instAt i with
    | none => .refused .noSuchPort
    | some (g, scr) => k i g scr

/-- Starts a console command: its first micro-step is performed, the others become the command in progress. -/
def State.startCommand (s : State) (micros : Config → InstCfg → List Micro) : Host.Outcome State Fault Refusal :=
  s.onPort fun i g scr => s.runMicros i g scr (micros s.cfg g)

/-! ## Refusals and construction -/

/-- The refusal of a command the decoder refuses (60_exceptions.md R139). -/
def Refusal.ofDecode : DecodeError → Refusal
  | .reservedOpcode => .reservedOpcode
  | .wrongPort => .wrongPort
  | .nonzeroReservedField => .nonzeroReservedField
  | .noSuchFont => .noSuchFont
  | .noSuchInstance => .noSuchInstance

/-- Construction at power-on: a configuration that fails a check is refused (70_reset_and_hazards.md R155). -/
def construct (c : Config) (drawChars drawAttrs : Nat → Nat → Byte) : Host.Outcome State Fault Refusal :=
  if c.Wf then .next (State.powerOn c drawChars drawAttrs) else .refused .illFormedConfig

end Sys2Proof.Machine
end

