-- ==== Sys2Proof/Machine/Console.lean ====
section
/-! DEFINITION. The console commands without text (42_console.md R114 to R119). Each meaning performs the command's first
micro-step and leaves the rest as the command in progress (log 6). -/

namespace Sys2Proof.Machine

/-- CLEAR (42_console.md R114). -/
def execClear (s : State) : Host.Outcome State Fault Refusal := s.startCommand clearMicros

/-- SET_FONT (42_console.md R115); a font that does not exist is refused (30_encoding.md R81). -/
def execSetFont (v : Byte) (s : State) : Host.Outcome State Fault Refusal :=
  s.onPort fun i g scr =>
    if v.toNat < s.cfg.numFonts then s.runMicros i g scr [.setFont v] else .refused .noSuchFont

/-- SET_ATTR (42_console.md R116). -/
def execSetAttr (v : Byte) (s : State) : Host.Outcome State Fault Refusal := s.startCommand fun _ _ => [.setAttr v]

/-- SET_CURSOR (42_console.md R117). -/
def execSetCursor (x y : Byte) (s : State) : Host.Outcome State Fault Refusal :=
  s.startCommand fun _ _ => [.setCursor x.toNat y.toNat]

/-- SHOW_CURSOR (42_console.md R118): sets the flag and does not restart the blink phase (43_frame_blink.md R134). -/
def execShowCursor (s : State) : Host.Outcome State Fault Refusal := s.startCommand fun _ _ => [.showCursor]

/-- HIDE_CURSOR (42_console.md R119). -/
def execHideCursor (s : State) : Host.Outcome State Fault Refusal := s.startCommand fun _ _ => [.hideCursor]

end Sys2Proof.Machine
end

