-- ==== Sys2Proof/Machine/Print.lean ====
section
/-! DEFINITION. The PRINT family (42_console.md R120 to R126). Each meaning performs the command's first micro-step and
leaves the rest as the command in progress (log 6). -/

namespace Sys2Proof.Machine

/-- PRINT (42_console.md R120). -/
def execPrint (t : List Byte) (s : State) : Host.Outcome State Fault Refusal := s.startCommand fun _ _ => printMicros t

/-- PRINT_AT (42_console.md R122). -/
def execPrintAt (x y : Byte) (t : List Byte) (s : State) : Host.Outcome State Fault Refusal :=
  s.startCommand fun _ _ => printAtMicros x.toNat y.toNat t

/-- PRINT_RIGHT (42_console.md R124). -/
def execPrintRight (y : Byte) (t : List Byte) (s : State) : Host.Outcome State Fault Refusal :=
  s.startCommand fun c g => printRightMicros c g y.toNat t

/-- PRINT_CENTER (42_console.md R126). -/
def execPrintCenter (y : Byte) (t : List Byte) (s : State) : Host.Outcome State Fault Refusal :=
  s.startCommand fun c g => printCenterMicros c g y.toNat t

end Sys2Proof.Machine
end

