-- ==== Sys2Proof/Machine/Mapper.lean ====
section
/-! DEFINITION. The Raster Region Mapper (40_region_mapper.md): pure functions of the configuration and the line. -/

namespace Sys2Proof.Machine

/-- What an owned line shows (40_region_mapper.md R89). -/
inductive Band where
  | topBorder
  | bottomBorder
  | active (row sub : Nat)
  deriving DecidableEq, Repr

/-- Owned(i, L) (40_region_mapper.md R87). -/
def owned (g : InstCfg) (line : Nat) : Bool := decide (g.start ≤ line) && decide (line < g.start + g.height)

/-- Classify(i, l), `l` the local line (40_region_mapper.md R88, R89). -/
def classify (c : Config) (g : InstCfg) (l : Nat) : Band :=
  if l < g.vb then .topBorder
  else if g.height - g.vb ≤ l then .bottomBorder
  else .active ((l - g.vb) / c.gh) ((l - g.vb) % c.gh)

end Sys2Proof.Machine
end

