-- ==== Sys2Proof/Machine/Raster.lean ====
section
/-! DEFINITION. The raster-port commands: RASTERIZE with the glyph lookup, the attribute decode and the pixel mux it is
built from (41_rasterize.md), and FRAME_TICK (43_frame_blink.md R130). -/

namespace Sys2Proof.Machine

/-! ## Fonts (20_memory.md R49, 41_rasterize.md R104) -/

/-- FontRow(f, e, s) (20_memory.md R49). -/
def fontRow (c : Config) (f : Font) (e sub : Nat) : Byte := f.data[e * c.gh + sub]?.getD 0

/-- GlyphBit(f, e, s, x): bit 7 of the row byte is the leftmost pixel (20_memory.md R49). -/
def glyphBit (c : Config) (f : Font) (e sub x : Nat) : Bool := (fontRow c f e sub).getLsbD (7 - x)

/-- Entry(f, ch): a code outside the font's range uses entry 0 (41_rasterize.md R104). -/
def glyphEntry (f : Font) (ch : Byte) : Nat :=
  if f.first ≤ ch.toNat ∧ ch.toNat < f.first + f.count then ch.toNat - f.first else 0

/-! ## Attributes (00_scope.md R16, 41_rasterize.md R106) -/

/-- PALETTE[k]. -/
def paletteAt (c : Config) (k : Nat) : Byte := c.palette[k]?.getD 0

/-- ATTR_FG(a). -/
def attrFgOf (c : Config) (a : Byte) : Byte :=
  match c.attrFg with
  | none => paletteAt c (a.extractLsb' 0 4).toNat
  | some t => t[a.toNat]?.getD 0

/-- ATTR_BG(a). -/
def attrBgOf (c : Config) (a : Byte) : Byte :=
  match c.attrBg with
  | none => paletteAt c (a.extractLsb' 4 4).toNat
  | some t => t[a.toNat]?.getD 0

/-! ## The pixel mux (41_rasterize.md R101, R103, R105, R107) -/

/-- Pixel p of an active line ACTIVE(row, sub), font f selected (41_rasterize.md R105). -/
def activePixel (c : Config) (g : InstCfg) (scr : Screen) (fc : BitVec 32) (f : Font) (row sub p : Nat) : Byte :=
  if p < g.hb ∨ g.hres - g.hb ≤ p then g.borderPixel
  else
    let col := (p - g.hb) / c.gw
    let x := (p - g.hb) % c.gw
    let cell := cellRead c g scr row col
    let bit := glyphBit c f (glyphEntry f cell.1) sub x
    let fg := attrFgOf c cell.2
    let bg := attrBgOf c cell.2
    if cursorHere c scr fc row col then (if bit then bg else fg) else (if bit then fg else bg)

/-- The pixels of an owned line, pixel 0 first: a border line reads no cell and no font row (41_rasterize.md R100);
none where FONTSEL names no font. -/
def linePixels (c : Config) (g : InstCfg) (scr : Screen) (fc : BitVec 32) : Band → Option (List Byte)
  | .topBorder => some (List.replicate g.hres g.borderPixel)
  | .bottomBorder => some (List.replicate g.hres g.borderPixel)
  | .active row sub =>
    match c.fonts[scr.fontsel.toNat]? with
    | none => none
    | some f => some ((List.range g.hres).map (activePixel c g scr fc f row sub))

/-- The blank response for a line not owned (41_rasterize.md R97). -/
def blankResponse (ratio : Byte) : Response :=
  { info := { owned := false, rep := repeatOf ratio, pixelCount := 0, startOffset := 0 }, pixels := [] }

/-- The response of RASTERIZE on one instance (41_rasterize.md R96). -/
def rasterResponse (c : Config) (g : InstCfg) (scr : Screen) (fc : BitVec 32) (line : Line) (ratio : Byte) :
    Option Response :=
  if owned g line.toNat then
    match linePixels c g scr fc (classify c g (line.toNat - g.start)) with
    | none => none
    | some px =>
      some { info := { owned := true, rep := repeatOf ratio, pixelCount := BitVec.ofNat 16 g.hres, startOffset := 0 },
             pixels := px }
  else some (blankResponse ratio)

/-! ## The commands -/

/-- RASTERIZE (41_rasterize.md R96): emits a response and changes no other state (R108). -/
def execRasterize (inst : BitVec 4) (line : Line) (ratio : Byte) (s : State) : Host.Outcome State Fault Refusal :=
  match s.active with
  | .cmd _ => .refused .wrongPort
  | .raster =>
    match s.instAt inst.toNat with
    | none => .refused .noSuchInstance
    | some (g, scr) =>
      match rasterResponse s.cfg g scr s.fc line ratio with
      | none => .fault .fontOutOfRange
      | some r => .next { s with responses := s.responses ++ [r] }

/-- FRAME_TICK (43_frame_blink.md R130). -/
def execFrameTick (s : State) : Host.Outcome State Fault Refusal :=
  match s.active with
  | .cmd _ => .refused .wrongPort
  | .raster => .next { s with fc := s.fc + 1 }

end Sys2Proof.Machine
end

