-- ==== Sys2Proof/Machine/Dispatch.lean ====
section
/-! DEFINITION. One arm per command of the opcode table: the meaning of each (spec/opcode_table.json). -/

namespace Sys2Proof.Machine

/-- The effect of one command, at the port `active` it came from. -/
def exec (i : Instr) (s : State) : Host.Outcome State Fault Refusal :=
  match i with
  | .clear => Sys2Proof.Machine.execClear s
  | .setFont v => Sys2Proof.Machine.execSetFont v s
  | .setAttr v => Sys2Proof.Machine.execSetAttr v s
  | .setCursor x y => Sys2Proof.Machine.execSetCursor x y s
  | .showCursor => Sys2Proof.Machine.execShowCursor s
  | .hideCursor => Sys2Proof.Machine.execHideCursor s
  | .print t => Sys2Proof.Machine.execPrint t s
  | .printAt x y t => Sys2Proof.Machine.execPrintAt x y t s
  | .printRight y t => Sys2Proof.Machine.execPrintRight y t s
  | .printCenter y t => Sys2Proof.Machine.execPrintCenter y t s
  | .rasterize inst line ratio => Sys2Proof.Machine.execRasterize inst line ratio s
  | .frameTick => Sys2Proof.Machine.execFrameTick s

end Sys2Proof.Machine
end

