-- ==== Sys2Proof/Machine/Serve.lean ====
section
/-! DEFINITION. What one atomic step of the system is (20_memory.md R57 to R59, 60_exceptions.md R144): a raster request
if one waits, else the host's next move, else a step of a ready command port, else nothing. Step.lean only calls this. -/

namespace Sys2Proof.Machine

/-- The state in which a command of port `i` runs: its words are taken from the port, and it came from that port. -/
def State.takeCommand (s : State) (i : Nat) (scr : Screen) (rest : List Word) : State :=
  { s.setScreen i { scr with rx := rest } with active := .cmd i }

/-- The state in which a command of the raster port runs. -/
def State.takeRaster (s : State) (rest : List Word) : State := { s with rasterRx := rest, active := .raster }

/-- One step of command port i (20_memory.md R57): the next micro-step of its command in progress; else, when a whole
command has been received (30_encoding.md R76), that command; else nothing. -/
def stepCommand (i : Nat) (s : State) : Host.Outcome State Fault Refusal :=
  match s.instAt i with
  | none => .refused .noSuchPort
  | some (g, scr) =>
    match scr.busy with
    | m :: ms => s.runMicros i g scr (m :: ms)
    | [] =>
      match decode s.cfg (.cmd i) scr.rx with
      | .incomplete => .next s
      | .refuse e _ => .refused (Refusal.ofDecode e)
      | .instr ins rest => exec ins (s.takeCommand i scr rest)

/-- One step of the raster port: its oldest request (60_exceptions.md R144). -/
def stepRaster (s : State) : Host.Outcome State Fault Refusal :=
  match decode s.cfg .raster s.rasterRx with
  | .incomplete => .next s
  | .refuse e _ => .refused (Refusal.ofDecode e)
  | .instr ins rest => exec ins (s.takeRaster rest)

/-- A word arrives at a port and waits there in the order sent (10_state.md R30); a port holds any number (log 8). -/
def deliver (p : Port) (w : Word) (s : State) : Host.Outcome State Fault Refusal :=
  match p with
  | .raster => .next { s with rasterRx := s.rasterRx ++ [w] }
  | .cmd i =>
    match s.instAt i with
    | none => .refused .noSuchPort
    | some (_, scr) => .next (s.setScreen i { scr with rx := scr.rx ++ [w] })

/-- Command port i has something to do: a micro-step, or a command that is whole or refused. -/
def State.ready (s : State) (i : Nat) : Bool :=
  match s.instAt i with
  | none => false
  | some (_, scr) => decide (scr.busy ≠ [] ∨ decode s.cfg (.cmd i) scr.rx ≠ .incomplete)

/-- The command port that goes next when the host has no more moves: the lowest-numbered ready one (DESIGN CHOICE,
log 4). -/
def State.firstReady (s : State) : Option Nat := (List.range s.cfg.numInsts).find? s.ready

/-- The step of a machine whose raster port has no request waiting. -/
def stepConsole (s : State) : Host.Outcome State Fault Refusal :=
  match s.inputs with
  | .send p w :: rest => deliver p w { s with inputs := rest }
  | .serve i :: rest => stepCommand i { s with inputs := rest }
  | [] =>
    match s.firstReady with
    | some i => stepCommand i s
    | none => .next s

/-- One atomic step of the system. A configuration that is not admitted is refused (00_scope.md R18); a waiting raster
request goes first (60_exceptions.md R144). -/
def stepSystem (s : State) : Host.Outcome State Fault Refusal :=
  if s.cfg.Wf then
    match s.rasterRx with
    | _ :: _ => stepRaster s
    | [] => stepConsole s
  else .refused .illFormedConfig

/-- `s` with the words of one command placed where the next step takes its command from (log 9): a raster request in
front of the raster port's queue; a console command in front of command port 0's stream, with no raster request
waiting, no command in progress there, and that port granted the next step. -/
def State.placeCommand (s : State) (p : Port) (ws : List Word) : State :=
  match p with
  | .raster => { s with rasterRx := ws ++ s.rasterRx }
  | .cmd i =>
    { s with
      rasterRx := []
      inputs := .serve i :: s.inputs
      screens := s.screens.modify i fun scr => { scr with rx := ws ++ scr.rx, busy := [] } }

end Sys2Proof.Machine
end

