-- ==== Sys2Proof/Machine/Step.lean ====
section
/-! DEFINITION. One step of the system, and the placing of an instruction where the next step takes it from. -/

namespace Sys2Proof.Machine

/-- One atomic step (20_memory.md R57 to R59). -/
def step (s : State) : Host.Outcome State Fault Refusal := stepSystem s

/-- `s` with the instruction whose bits are `w` (numbered as the opcode table numbers them, zero from bit `nbits` up)
placed so that the very next step runs it (log 9). -/
def State.withFetchWord (s : State) (nbits w : Nat) : State :=
  s.placeCommand (portOf (BitVec.ofNat 32 (w % 2 ^ nbits))) (tableWords nbits w)

end Sys2Proof.Machine
end

