-- ==== Sys2Proof/Safety.lean ====
section
/-! DEFINITION. What a safe state and a safe run are: the invariant the claims are stated over, and a run that meets no
fault and no refusal (60_exceptions.md R139: a claim is stated only over runs with no refusal). -/

namespace Sys2Proof.Machine

/-- A micro-step names only cells and fonts that exist. -/
def Micro.Ok (c : Config) (g : InstCfg) : Micro → Bool
  | .clearCell r k => decide (r < c.rows g) && decide (k < c.cols g)
  | .setFont v => decide (v.toNat < c.numFonts)
  | .home => true
  | .setCursor _ _ => true
  | .putChar _ => true
  | .setAttr _ => true
  | .showCursor => true
  | .hideCursor => true

/-- A buffer plane of instance `g`: in canonical form, every listed address a cell of the buffer. -/
abbrev PlaneOk (c : Config) (g : InstCfg) (m : Memory) : Prop := m.Wf ∧ m.Below (c.rows g * c.cols g)

/-- The cursor is on a cell (10_state.md R37). -/
abbrev CursorOk (c : Config) (g : InstCfg) (scr : Screen) : Prop :=
  scr.curx.toNat < c.cols g ∧ scr.cury.toNat < c.rows g

/-- One instance is in a legal state: every register holds a legal value (10_state.md R43), the planes are in canonical
form, and the command in progress names only what exists. -/
abbrev ScreenOk (c : Config) (g : InstCfg) (scr : Screen) : Prop :=
  CursorOk c g scr ∧ scr.fontsel.toNat < c.numFonts ∧ PlaneOk c g scr.chars ∧ PlaneOk c g scr.attrs ∧
    ∀ m ∈ scr.busy, m.Ok c g = true

/-- The invariant of the system: the configuration is admitted (00_scope.md R18), there is one state per instance
(10_state.md R28), and every instance is in a legal state. -/
abbrev State.Inv (s : State) : Prop :=
  s.cfg.Wf ∧ s.screens.length = s.cfg.insts.length ∧ ∀ p ∈ s.cfg.insts.zip s.screens, ScreenOk s.cfg p.1 p.2

/-- A run of `k` steps from `s` that meets no fault and no refusal and ends in `t`. -/
abbrev SafeRun (k : Nat) (s t : State) : Prop := Host.Core.run Sys2Proof.core k s = .next t

end Sys2Proof.Machine
end

