-- ==== Sys2Proof/Certificates/Slice0/Obligations.lean ====
section
/-! DEFINITION. The statements about the model, one definition each. `OBLIGATIONS.json` lists them.

Premises in common: `s.active = .cmd n` (or `.raster`) is the port an instruction came from, `s.instAt n = some (g, scr)`
names the instance it acts on. The planes are read one cell at a time with `Memory.read` at the linear index. -/

open Sys2Proof Sys2Proof.Machine

/-! ## Encoding (30_encoding.md) -/

/-- Decoding the words of a well-formed command gives the command back and leaves the words after it
(30_encoding.md R67 to R78): every operand at every value its field admits. -/
def Obligations.DecodeOfEncodeGivesTheCommandBack : Prop :=
  ∀ (c : Config) (p : Port) (i : Instr) (rest : List Word), i.Wf c p → decode c p (encode i ++ rest) = .instr i rest

/-- Words the spec writes out (95_test_vectors.md V1, 30_encoding.md R86) decode to the commands it gives them. -/
def Obligations.WordsTheSpecWritesOutDecodeAsItSays : Prop :=
  decode Config.boot (.cmd 0) [0x10000000] = .instr .clear [] ∧
  decode Config.boot (.cmd 0) [0x20000001] = .instr (.setFont 1) [] ∧
  decode Config.boot (.cmd 0) [0x3000001E] = .instr (.setAttr 0x1E) [] ∧
  decode Config.boot (.cmd 0) [0x4000030A] = .instr (.setCursor 10 3) [] ∧
  decode Config.boot (.cmd 0) [0x50000000] = .instr .showCursor [] ∧
  decode Config.boot (.cmd 0) [0x60000000] = .instr .hideCursor [] ∧
  decode Config.boot (.cmd 0) [0x70020000, 0x00004241] = .instr (.print [0x41, 0x42]) [] ∧
  decode Config.boot (.cmd 0) [0x80050001, 0x4C4C4548, 0x0000004F] =
    .instr (.printAt 1 0 [0x48, 0x45, 0x4C, 0x4C, 0x4F]) [] ∧
  decode Config.boot (.cmd 0) [0x90050100, 0x4C4C4548, 0x0000004F] =
    .instr (.printRight 1 [0x48, 0x45, 0x4C, 0x4C, 0x4F]) [] ∧
  decode Config.boot (.cmd 0) [0xA0050000, 0x4C4C4548, 0x0000004F] =
    .instr (.printCenter 0 [0x48, 0x45, 0x4C, 0x4C, 0x4F]) [] ∧
  decode Config.boot .raster [0xB101001C] = .instr (.rasterize 1 28 1) [] ∧
  decode Config.boot .raster [0xC0000000] = .instr .frameTick []

/-- Character k of a text is byte k mod 4 of data word k div 4; the text has the length the command word says, so bytes
after its last character do not enter it (30_encoding.md R74). -/
def Obligations.TextCharacterIsItsByteOfTheDataWords : Prop :=
  ∀ (ds : List Word) (n k : Nat) (d : Word), n ≤ 4 * ds.length → k < n → ds[k / 4]? = some d →
    (textOf ds n).length = n ∧ (textOf ds n)[k]? = some (d.extractLsb' (8 * (k % 4)) 8)

/-- A command takes the data words its first word alone tells, and is not there before the last of them is
(30_encoding.md R76). -/
def Obligations.CommandWaitsForTheDataWordsItsFirstWordTells : Prop :=
  ∀ (c : Config) (p : Port) (w : Word) (rest : List Word) (i : Instr),
    decodeFirst c p w (textOf (rest.take (dataWords w)) (fieldN w)) = .ok i →
      (dataWords w = if 7 ≤ (w.extractLsb' 28 4).toNat ∧ (w.extractLsb' 28 4).toNat ≤ 10 then
          ((w.extractLsb' 16 12).toNat + 3) / 4 else 0) ∧
      (rest.length < dataWords w → decode c p (w :: rest) = .incomplete) ∧
      (dataWords w ≤ rest.length → decode c p (w :: rest) = .instr i (rest.drop (dataWords w)))

/-- A reserved opcode is refused on every port, and a port whose next command has one refuses the step
(30_encoding.md R79). That the raster port's word is met before any word still to arrive is the model's reading, log 5;
that a move of the host grants the command port is the model's choice, log 4. -/
def Obligations.ReservedOpcodesAreRefused : Prop :=
  ∀ (c : Config) (p : Port) (w : Word) (rest : List Word),
    (w.extractLsb' 28 4).toNat ∈ [0x0, 0xD, 0xE, 0xF] →
      decode c p (w :: rest) = .refuse .reservedOpcode rest ∧
      (∀ s : State, s.cfg.Wf → s.rasterRx = w :: rest → step s = .refused .reservedOpcode) ∧
      (∀ (s : State) (n : Nat) (more : List Input) (g : InstCfg) (scr : Screen), s.cfg.Wf → s.rasterRx = [] →
        s.inputs = .serve n :: more → s.instAt n = some (g, scr) → scr.busy = [] → scr.rx = w :: rest →
          step s = .refused .reservedOpcode)

/-- A console opcode on the raster port and a raster opcode on a command port are refused with WRONG_PORT, whatever the
other fields hold (60_exceptions.md R140, R145), by the decoder and by the meanings themselves. That a format-T command
is refused before its data words have arrived is the model's reading, log 7. -/
def Obligations.OpcodesOnTheOtherKindOfPortAreRefused : Prop :=
  (∀ (c : Config) (w : Word) (rest : List Word),
    ((1 ≤ (w.extractLsb' 28 4).toNat ∧ (w.extractLsb' 28 4).toNat ≤ 10) →
      decode c .raster (w :: rest) = .refuse .wrongPort (rest.drop (dataWords w))) ∧
    ((w.extractLsb' 28 4).toNat = 11 ∨ (w.extractLsb' 28 4).toNat = 12 →
      ∀ n, decode c (.cmd n) (w :: rest) = .refuse .wrongPort rest)) ∧
  (∀ (s : State) (i : Instr), i.onItsPort s.active = false → exec i s = .refused .wrongPort)

/-- On its own kind of port, a command whose must-be-zero field is not zero is refused, whatever its value fields hold,
and its data words are consumed with it (30_encoding.md R69 to R73, R78, R80). That a format-T command is refused before
its data words have arrived is the model's reading, log 7. -/
def Obligations.NonzeroReservedFieldsAreRefused : Prop :=
  ∀ (c : Config) (n : Nat) (w : Word) (rest : List Word),
    ((w.extractLsb' 28 4).toNat ∈ [1, 5, 6] → w.extractLsb' 0 28 ≠ 0 →
      decode c (.cmd n) (w :: rest) = .refuse .nonzeroReservedField rest) ∧
    ((w.extractLsb' 28 4).toNat ∈ [2, 3] → w.extractLsb' 8 20 ≠ 0 →
      decode c (.cmd n) (w :: rest) = .refuse .nonzeroReservedField rest) ∧
    ((w.extractLsb' 28 4).toNat = 4 → w.extractLsb' 16 12 ≠ 0 →
      decode c (.cmd n) (w :: rest) = .refuse .nonzeroReservedField rest) ∧
    ((w.extractLsb' 28 4).toNat = 7 → w.extractLsb' 0 16 ≠ 0 →
      decode c (.cmd n) (w :: rest) = .refuse .nonzeroReservedField (rest.drop (dataWords w))) ∧
    ((w.extractLsb' 28 4).toNat ∈ [9, 10] → w.extractLsb' 0 8 ≠ 0 →
      decode c (.cmd n) (w :: rest) = .refuse .nonzeroReservedField (rest.drop (dataWords w))) ∧
    ((w.extractLsb' 28 4).toNat = 12 → w.extractLsb' 0 28 ≠ 0 →
      decode c .raster (w :: rest) = .refuse .nonzeroReservedField rest)

/-- SET_FONT of a font table that does not exist and RASTERIZE of an instance that does not exist are refused
(30_encoding.md R81), by the decoder and by the meaning itself. -/
def Obligations.MissingFontsAndInstancesAreRefused : Prop :=
  (∀ (c : Config) (n : Nat) (w : Word) (rest : List Word), (w.extractLsb' 28 4).toNat = 2 → w.extractLsb' 8 20 = 0 →
    c.numFonts ≤ (w.extractLsb' 0 8).toNat → decode c (.cmd n) (w :: rest) = .refuse .noSuchFont rest) ∧
  (∀ (c : Config) (w : Word) (rest : List Word), (w.extractLsb' 28 4).toNat = 11 →
    c.numInsts ≤ (w.extractLsb' 24 4).toNat → decode c .raster (w :: rest) = .refuse .noSuchInstance rest) ∧
  (∀ (s : State) (n : Nat) (g : InstCfg) (scr : Screen) (v : Byte), s.active = .cmd n → s.instAt n = some (g, scr) →
    s.cfg.numFonts ≤ v.toNat → exec (.setFont v) s = .refused .noSuchFont) ∧
  (∀ (s : State) (inst : BitVec 4) (line : Line) (ratio : Byte), s.active = .raster →
    s.cfg.numInsts ≤ inst.toNat → exec (.rasterize inst line ratio) s = .refused .noSuchInstance)

/-! ## The Raster Region Mapper (40_region_mapper.md) -/

/-- Every physical line is owned by at most one instance (40_region_mapper.md R93); two touching bands own every line from
the first's start to the second's end exactly once (R94). -/
def Obligations.EveryLineHasAtMostOneOwner : Prop :=
  (∀ (c : Config) (i j : Nat) (g h : InstCfg) (line : Nat), c.Wf → c.insts[i]? = some g → c.insts[j]? = some h →
    owned g line = true → owned h line = true → i = j) ∧
  (∀ (g h : InstCfg) (line : Nat), h.start = g.start + g.height →
    ((g.start ≤ line ∧ line < h.start + h.height) ↔ xor (owned g line) (owned h line) = true) ∧
    ¬(owned g line = true ∧ owned h line = true))

/-- On an owned active line the row is a row of the buffer and the sub-row a row of the glyph (40_region_mapper.md R90);
and every pixel between the horizontal borders belongs to a column of the buffer. -/
def Obligations.ActiveLinesAndPixelsLieInTheBuffer : Prop :=
  ∀ (c : Config) (g : InstCfg) (line row sub p : Nat), c.Wf → g ∈ c.insts → owned g line = true →
    classify c g (line - g.start) = .active row sub →
      row < c.rows g ∧ sub < c.gh ∧
      (g.hb ≤ p → p < g.hres - g.hb → (p - g.hb) / c.gw < c.cols g ∧ (p - g.hb) % c.gw < c.gw)

/-- The top and the bottom border band are VB lines thick each; between them the lines count through the sub-rows and
rows from (0, 0) to (ROWS - 1, GH - 1) (40_region_mapper.md R89, R91). -/
def Obligations.BorderBandsAndRowsPartitionTheBand : Prop :=
  ∀ (c : Config) (g : InstCfg), c.Wf → g ∈ c.insts →
    (List.range g.height).countP (fun l => classify c g l == .topBorder) = g.vb ∧
    (List.range g.height).countP (fun l => classify c g l == .bottomBorder) = g.vb ∧
    classify c g g.vb = .active 0 0 ∧
    classify c g (g.height - g.vb - 1) = .active (c.rows g - 1) (c.gh - 1) ∧
    ∀ row sub, row < c.rows g → sub < c.gh → classify c g (g.vb + row * c.gh + sub) = .active row sub

/-! ## RASTERIZE (41_rasterize.md) -/

/-- A line the named instance does not own gets the blank response and nothing else changes (41_rasterize.md R97). -/
def Obligations.RasterizeOfALineNotOwnedIsBlank : Prop :=
  ∀ (s : State) (inst : BitVec 4) (line : Line) (ratio : Byte) (g : InstCfg) (scr : Screen),
    s.active = .raster → s.instAt inst.toNat = some (g, scr) → ¬(g.start ≤ line.toNat ∧ line.toNat < g.start + g.height) →
      ∃ r : Response, exec (.rasterize inst line ratio) s = .next { s with responses := s.responses ++ [r] } ∧
        r.info.owned = false ∧ r.info.pixelCount = 0 ∧ r.info.startOffset = 0 ∧ r.info.rep.toNat = max ratio.toNat 1 ∧
        r.pixels = []

/-- For every line an instance owns, RASTERIZE completes with exactly HRES pixels, reports that count, and changes no
other state (41_rasterize.md R99). -/
def Obligations.RasterizeOfAnOwnedLineEmitsHresPixels : Prop :=
  ∀ (s : State) (inst : BitVec 4) (line : Line) (ratio : Byte) (g : InstCfg) (scr : Screen),
    s.Inv → s.active = .raster → s.instAt inst.toNat = some (g, scr) → g.start ≤ line.toNat →
    line.toNat < g.start + g.height →
      ∃ r : Response, exec (.rasterize inst line ratio) s = .next { s with responses := s.responses ++ [r] } ∧
        r.info.owned = true ∧ r.info.pixelCount.toNat = g.hres ∧ r.info.startOffset = 0 ∧
        r.info.rep.toNat = max ratio.toNat 1 ∧ r.pixels.length = g.hres

/-- On a vertical border line every pixel is BORDER_PIXEL; no cell, register or font has a part in it, so the statement
holds in every state (41_rasterize.md R100). -/
def Obligations.VerticalBorderLineIsAllBorderPixels : Prop :=
  ∀ (s : State) (inst : BitVec 4) (line : Line) (ratio : Byte) (g : InstCfg) (scr : Screen),
    s.active = .raster → s.instAt inst.toNat = some (g, scr) → g.start ≤ line.toNat → line.toNat < g.start + g.height →
    (line.toNat - g.start < g.vb ∨ g.height - g.vb ≤ line.toNat - g.start) →
      ∃ r : Response, exec (.rasterize inst line ratio) s = .next { s with responses := s.responses ++ [r] } ∧
        r.pixels = List.replicate g.hres g.borderPixel

/-- On an active line the HB leftmost and the HB rightmost pixels are BORDER_PIXEL (41_rasterize.md R101). -/
def Obligations.HorizontalBorderPixelsOfAnActiveLine : Prop :=
  ∀ (s : State) (inst : BitVec 4) (line : Line) (ratio : Byte) (g : InstCfg) (scr : Screen) (p : Nat),
    s.Inv → s.active = .raster → s.instAt inst.toNat = some (g, scr) → g.start ≤ line.toNat →
    g.vb ≤ line.toNat - g.start → line.toNat - g.start < g.height - g.vb → p < g.hres →
    (p < g.hb ∨ g.hres - g.hb ≤ p) →
      ∃ r : Response, exec (.rasterize inst line ratio) s = .next { s with responses := s.responses ++ [r] } ∧
        r.pixels[p]? = some g.borderPixel

/-- The pixel mux (41_rasterize.md R103, R105, R106, R107): an active pixel shows the glyph bit of its cell's character,
read from the font storage, as the cell's foreground or background, the two exchanged on the cell of a cursor that is
visible and in the ON half of the blink cycle. -/
def Obligations.ActivePixelIsTheGlyphBitThroughTheMux : Prop :=
  ∀ (s : State) (inst : BitVec 4) (line : Line) (ratio : Byte) (g : InstCfg) (scr : Screen) (p : Nat),
    s.Inv → s.active = .raster → s.instAt inst.toNat = some (g, scr) → g.start ≤ line.toNat →
    g.vb ≤ line.toNat - g.start → line.toNat - g.start < g.height - g.vb → g.hb ≤ p → p < g.hres - g.hb →
      let l := line.toNat - g.start - g.vb
      let col := (p - g.hb) / s.cfg.gw
      let ch := scr.chars.read (l / s.cfg.gh * s.cfg.cols g + col)
      let att := scr.attrs.read (l / s.cfg.gh * s.cfg.cols g + col)
      ∃ (r : Response) (f : Font) (rowByte : Byte),
        exec (.rasterize inst line ratio) s = .next { s with responses := s.responses ++ [r] } ∧
        s.cfg.fonts[scr.fontsel.toNat]? = some f ∧
        f.data[glyphEntry f ch * s.cfg.gh + l % s.cfg.gh]? = some rowByte ∧
        r.pixels[p]? = some
          (if scr.curvis = true ∧ scr.cury.toNat = l / s.cfg.gh ∧ scr.curx.toNat = col ∧
              s.fc.toNat % s.cfg.blinkCycle < s.cfg.blinkCycle / 2 then
            (if rowByte.getLsbD (7 - (p - g.hb) % s.cfg.gw) then attrBgOf s.cfg att else attrFgOf s.cfg att)
          else
            (if rowByte.getLsbD (7 - (p - g.hb) % s.cfg.gw) then attrFgOf s.cfg att else attrBgOf s.cfg att))

/-- A code in the font's range maps to its own entry, every other code to entry 0, and the entry always exists
(41_rasterize.md R104). -/
def Obligations.CodesOutsideTheFontUseEntryZero : Prop :=
  ∀ (c : Config) (f : Font) (ch : Byte), c.Wf → f ∈ c.fonts →
    (f.first ≤ ch.toNat → ch.toNat < f.first + f.count → glyphEntry f ch = ch.toNat - f.first) ∧
    (¬(f.first ≤ ch.toNat ∧ ch.toNat < f.first + f.count) → glyphEntry f ch = 0) ∧
    glyphEntry f ch < f.count ∧
    ∀ sub, sub < c.gh → glyphEntry f ch * c.gh + sub < f.data.length

/-- Every attribute has a defined foreground and background pixel value; by default they are the palette entries of its
low and its high nibble (00_scope.md R16, 41_rasterize.md R106). -/
def Obligations.EveryAttributeHasDefinedPixelValues : Prop :=
  ∀ (c : Config) (a : Byte), c.Wf →
    (c.attrFg = none → c.palette[a.toNat % 16]? = some (attrFgOf c a)) ∧
    (c.attrBg = none → c.palette[a.toNat / 16]? = some (attrBgOf c a)) ∧
    (∀ t, c.attrFg = some t → t[a.toNat]? = some (attrFgOf c a)) ∧
    (∀ t, c.attrBg = some t → t[a.toNat]? = some (attrBgOf c a))

/-- Cursor inversion is confined: hiding the cursor changes a pixel of an owned line only on the cursor's cell and only
while the cursor is visible and in its ON half; there foreground and background are exchanged (41_rasterize.md R109). -/
def Obligations.CursorInversionAffectsOnlyTheCursorCell : Prop :=
  ∀ (s : State) (inst : BitVec 4) (line : Line) (ratio : Byte) (g : InstCfg) (scr : Screen),
    s.Inv → s.active = .raster → s.instAt inst.toNat = some (g, scr) → g.start ≤ line.toNat →
    line.toNat < g.start + g.height →
      ∃ r h : Response,
        exec (.rasterize inst line ratio) s = .next { s with responses := s.responses ++ [r] } ∧
        exec (.rasterize inst line ratio) (s.setScreen inst.toNat { scr with curvis := false }) =
          .next { s.setScreen inst.toNat { scr with curvis := false } with responses := s.responses ++ [h] } ∧
        ∀ p, p < g.hres →
          let onCell := g.vb ≤ line.toNat - g.start ∧ line.toNat - g.start < g.height - g.vb ∧
            (line.toNat - g.start - g.vb) / s.cfg.gh = scr.cury.toNat ∧ g.hb ≤ p ∧ p < g.hres - g.hb ∧
            (p - g.hb) / s.cfg.gw = scr.curx.toNat
          let att := scr.attrs.read (scr.cury.toNat * s.cfg.cols g + scr.curx.toNat)
          (¬(onCell ∧ scr.curvis = true ∧ blinkOn s.cfg s.fc = true) → r.pixels[p]? = h.pixels[p]?) ∧
          (onCell ∧ scr.curvis = true ∧ blinkOn s.cfg s.fc = true →
            (r.pixels[p]? = some (attrFgOf s.cfg att) ∧ h.pixels[p]? = some (attrBgOf s.cfg att)) ∨
            (r.pixels[p]? = some (attrBgOf s.cfg att) ∧ h.pixels[p]? = some (attrFgOf s.cfg att)))

/-- The response is a function of the configuration, the named instance's CHARS, ATTRS, CURX, CURY, CURVIS and FONTSEL,
FC and the operands alone: DEFATTR, what its port holds and every other instance have no part in it
(41_rasterize.md R108). -/
def Obligations.ResponseDependsOnNothingElse : Prop :=
  ∀ (s s' t : State) (inst : BitVec 4) (line : Line) (ratio : Byte) (g : InstCfg) (scr scr' : Screen),
    s.cfg = s'.cfg → s.fc = s'.fc → s.active = .raster → s'.active = .raster → s.instAt inst.toNat = some (g, scr) →
    s'.instAt inst.toNat = some (g, scr') → scr.chars = scr'.chars → scr.attrs = scr'.attrs → scr.curx = scr'.curx →
    scr.cury = scr'.cury → scr.curvis = scr'.curvis → scr.fontsel = scr'.fontsel →
    exec (.rasterize inst line ratio) s = .next t →
      ∃ r : Response, t = { s with responses := s.responses ++ [r] } ∧
        exec (.rasterize inst line ratio) s' = .next { s' with responses := s'.responses ++ [r] }

/-- For every response REPEAT is max(RATIO, 1) and START_OFFSET is 0, and the pixels do not depend on RATIO
(41_rasterize.md R98). -/
def Obligations.RatioSetsRepeatAndNoPixel : Prop :=
  ∀ (s t : State) (inst : BitVec 4) (line : Line) (ratio ratio' : Byte),
    exec (.rasterize inst line ratio) s = .next t →
      ∃ r r' : Response, t = { s with responses := s.responses ++ [r] } ∧
        exec (.rasterize inst line ratio') s = .next { s with responses := s.responses ++ [r'] } ∧
        r.info.rep.toNat = max ratio.toNat 1 ∧ r'.info.rep.toNat = max ratio'.toNat 1 ∧
        r.info.startOffset = 0 ∧ r'.info.startOffset = 0 ∧ r.pixels = r'.pixels ∧
        r.info.owned = r'.info.owned ∧ r.info.pixelCount = r'.info.pixelCount

/-- The fields of the two information words (30_encoding.md R83). -/
def Obligations.ResponseWordsHoldTheirFields : Prop :=
  ∀ i : RasterInfo,
    i.word0.getLsbD 31 = i.owned ∧ i.word0.extractLsb' 24 7 = 0 ∧ i.word0.extractLsb' 16 8 = i.rep ∧
    i.word0.extractLsb' 0 16 = i.pixelCount ∧ i.word1.extractLsb' 16 16 = 0 ∧ i.word1.extractLsb' 0 16 = i.startOffset

/-- After a completed CLEAR every active pixel of an owned active line is the background of the default attribute,
provided the space glyph of the selected font has no set bit and the cursor is not shown on the pixel's cell; border
pixels stay BORDER_PIXEL (41_rasterize.md R111). -/
def Obligations.ClearScreenRendersFlat : Prop :=
  ∀ (s : State) (inst : BitVec 4) (line : Line) (ratio : Byte) (g : InstCfg) (scr scr' : Screen) (f : Font) (p : Nat),
    s.Inv → s.active = .raster → s.instAt inst.toNat = some (g, scr) →
    performAll s.cfg g (microsOf s.cfg g .clear) scr = some scr' → s.cfg.fonts[scr'.fontsel.toNat]? = some f →
    (∀ sub x, sub < s.cfg.gh → x < s.cfg.gw → glyphBit s.cfg f (glyphEntry f 0x20) sub x = false) →
    g.start ≤ line.toNat → line.toNat < g.start + g.height → p < g.hres →
      ∃ r : Response,
        exec (.rasterize inst line ratio) (s.setScreen inst.toNat scr') =
          .next { s.setScreen inst.toNat scr' with responses := s.responses ++ [r] } ∧
        (¬(g.vb ≤ line.toNat - g.start ∧ line.toNat - g.start < g.height - g.vb ∧ g.hb ≤ p ∧ p < g.hres - g.hb) →
          r.pixels[p]? = some g.borderPixel) ∧
        (g.vb ≤ line.toNat - g.start → line.toNat - g.start < g.height - g.vb → g.hb ≤ p → p < g.hres - g.hb →
          cursorHere s.cfg scr' s.fc ((line.toNat - g.start - g.vb) / s.cfg.gh) ((p - g.hb) / s.cfg.gw) = false →
          r.pixels[p]? = some (attrBgOf s.cfg scr.defattr))

/-! ## Frame counter and blink (43_frame_blink.md) -/

/-- FRAME_TICK increments FC modulo 2^32 and changes nothing else (43_frame_blink.md R130, R131). -/
def Obligations.FrameTickIncrementsTheFrameCounterOnly : Prop :=
  ∀ s : State, s.active = .raster →
    ∃ t : State, exec .frameTick s = .next t ∧ t = { s with fc := t.fc } ∧ t.fc.toNat = (s.fc.toNat + 1) % 2 ^ 32

/-- No step but one that runs FRAME_TICK changes FC, and that one adds one (10_state.md R41, 43_frame_blink.md R131). -/
def Obligations.OnlyFrameTickWritesTheFrameCounter : Prop :=
  ∀ s t : State, step s = .next t →
    t.fc = s.fc ∨ (t.fc = s.fc + 1 ∧ ∃ rest, decode s.cfg .raster s.rasterRx = .instr .frameTick rest)

/-- When BLINK_CYCLE divides 2^32 the cycle continues across the wrap of FC; otherwise the cycle in progress is cut
short; and after the wrap the phase is ON (43_frame_blink.md R136). -/
def Obligations.BlinkPhaseAtTheWrapOfTheFrameCounter : Prop :=
  ∀ c : Config, c.Wf →
    (c.blinkCycle ∣ 2 ^ 32 →
      ∀ fc : BitVec 32, (fc + 1).toNat % c.blinkCycle = (fc.toNat % c.blinkCycle + 1) % c.blinkCycle) ∧
    (¬c.blinkCycle ∣ 2 ^ 32 → (BitVec.allOnes 32).toNat % c.blinkCycle + 1 < c.blinkCycle) ∧
    BitVec.allOnes 32 + 1 = 0 ∧ blinkOn c (BitVec.allOnes 32 + 1) = true

/-- The derived cursor state machine (43_frame_blink.md R133, R134): HIDE_CURSOR leads to HIDDEN; SHOW_CURSOR leads to
the state the frame counter says and leaves a visible cursor as it is; FRAME_TICK leaves HIDDEN as it is and moves a
visible cursor by the new FC alone. -/
def Obligations.CursorStateMachine : Prop :=
  ∀ (c : Config) (g : InstCfg) (scr : Screen) (fc : BitVec 32),
    (cursorPhase c scr fc = .hidden ↔ scr.curvis = false) ∧
    (cursorPhase c scr fc = .visibleOn ↔ scr.curvis = true ∧ fc.toNat % c.blinkCycle < c.blinkCycle / 2) ∧
    (cursorPhase c scr fc = .visibleOff ↔ scr.curvis = true ∧ ¬fc.toNat % c.blinkCycle < c.blinkCycle / 2) ∧
    (∃ h, performAll c g (microsOf c g .hideCursor) scr = some h ∧ cursorPhase c h fc = .hidden) ∧
    (∃ h, performAll c g (microsOf c g .showCursor) scr = some h ∧
      cursorPhase c h fc = (if fc.toNat % c.blinkCycle < c.blinkCycle / 2 then .visibleOn else .visibleOff) ∧
      (scr.curvis = true → cursorPhase c h fc = cursorPhase c scr fc)) ∧
    (scr.curvis = false → cursorPhase c scr (fc + 1) = .hidden) ∧
    (scr.curvis = true → cursorPhase c scr (fc + 1) ≠ .hidden ∧
      (cursorPhase c scr (fc + 1) = cursorPhase c scr fc ↔ blinkOn c (fc + 1) = blinkOn c fc))

/-! ## The console commands (42_console.md) -/

/-- SET_FONT of an existing font writes FONTSEL and nothing else (42_console.md R115). -/
def Obligations.SetFontWritesTheFontSelectionOnly : Prop :=
  ∀ (s : State) (n : Nat) (g : InstCfg) (scr : Screen) (v : Byte), s.active = .cmd n → s.instAt n = some (g, scr) →
    scr.busy = [] → v.toNat < s.cfg.numFonts → exec (.setFont v) s = .next (s.setScreen n { scr with fontsel := v })

/-- SET_ATTR writes DEFATTR and nothing else (42_console.md R116). -/
def Obligations.SetAttrWritesTheDefaultAttributeOnly : Prop :=
  ∀ (s : State) (n : Nat) (g : InstCfg) (scr : Screen) (v : Byte), s.active = .cmd n → s.instAt n = some (g, scr) →
    scr.busy = [] → exec (.setAttr v) s = .next (s.setScreen n { scr with defattr := v })

/-- SET_CURSOR writes the clamped position and nothing else, each coordinate clamped on its own
(42_console.md R112, R117). -/
def Obligations.SetCursorWritesTheClampedPositionOnly : Prop :=
  ∀ (s : State) (n : Nat) (g : InstCfg) (scr : Screen) (x y : Byte), s.cfg.Wf → s.active = .cmd n →
    s.instAt n = some (g, scr) → scr.busy = [] →
      ∃ cx cy : Byte, exec (.setCursor x y) s = .next (s.setScreen n { scr with curx := cx, cury := cy }) ∧
        cx.toNat = min x.toNat (s.cfg.cols g - 1) ∧ cy.toNat = min y.toNat (s.cfg.rows g - 1)

/-- SHOW_CURSOR sets the visibility flag, HIDE_CURSOR clears it, and neither writes anything else
(42_console.md R118, R119). -/
def Obligations.ShowAndHideWriteTheVisibilityFlagOnly : Prop :=
  ∀ (s : State) (n : Nat) (g : InstCfg) (scr : Screen), s.active = .cmd n → s.instAt n = some (g, scr) →
    scr.busy = [] →
      exec .showCursor s = .next (s.setScreen n { scr with curvis := true }) ∧
      exec .hideCursor s = .next (s.setScreen n { scr with curvis := false })

/-- CLEAR writes its first cell at once and leaves every other micro-step, the cursor's last, as the command in progress
(42_console.md R114; the split is log 6). -/
def Obligations.ClearPerformsItsFirstMicroStep : Prop :=
  ∀ (s : State) (n : Nat) (g : InstCfg) (scr : Screen), s.cfg.Wf → s.active = .cmd n → s.instAt n = some (g, scr) →
    exec .clear s = .next (s.setScreen n
      { scr with
        chars := scr.chars.write 0 0x20
        attrs := scr.attrs.write 0 scr.defattr
        busy := (clearMicros s.cfg g).tail })

/-- PRINT of a nonempty text writes its first character at the cursor and leaves one PutChar per further character as
the command in progress; PRINT of the empty text performs nothing (42_console.md R120; the split is log 6). -/
def Obligations.PrintPerformsItsFirstCharacter : Prop :=
  ∀ (s : State) (n : Nat) (g : InstCfg) (scr : Screen) (ch : Byte) (t : List Byte), s.active = .cmd n →
    s.instAt n = some (g, scr) → CursorOk s.cfg g scr →
      exec (.print []) s = .next (s.setScreen n { scr with busy := [] }) ∧
      ∃ scr', putChar s.cfg g scr ch = some scr' ∧
        exec (.print (ch :: t)) s = .next (s.setScreen n { scr' with busy := t.map .putChar })

/-- PRINT_AT, PRINT_RIGHT and PRINT_CENTER move the cursor to their starting position at once, clamped, and leave one
PutChar per character of the (truncated) text as the command in progress (42_console.md R122, R124, R126; the split is
log 6). -/
def Obligations.PositionedPrintsMoveTheCursorFirst : Prop :=
  ∀ (s : State) (n : Nat) (g : InstCfg) (scr : Screen) (x y : Byte) (t : List Byte), s.cfg.Wf → s.active = .cmd n →
    s.instAt n = some (g, scr) →
      let w := s.cfg.cols g
      ∃ cx rx' mx cy : Byte,
        cx.toNat = min x.toNat (w - 1) ∧ cy.toNat = min y.toNat (s.cfg.rows g - 1) ∧
        rx'.toNat = min (w - min t.length w) (w - 1) ∧ mx.toNat = (w - min t.length w) / 2 ∧
        exec (.printAt x y t) s =
          .next (s.setScreen n { scr with curx := cx, cury := cy, busy := t.map .putChar }) ∧
        exec (.printRight y t) s =
          .next (s.setScreen n
            { scr with curx := rx', cury := cy, busy := (t.drop (t.length - w)).map .putChar }) ∧
        exec (.printCenter y t) s =
          .next (s.setScreen n
            { scr with curx := mx, cury := cy, busy := ((t.drop ((t.length - w) / 2)).take w).map .putChar })

/-- Every console command whose operands exist starts on an instance in a legal state: its first micro-step is performed
on that instance and the rest of its list is the command in progress (20_memory.md R57, 42_console.md R127; the split is
log 6). -/
def Obligations.EveryConsoleCommandStartsItsMicroSteps : Prop :=
  ∀ (s : State) (n : Nat) (g : InstCfg) (scr : Screen) (i : Instr), s.cfg.Wf → s.active = .cmd n →
    s.instAt n = some (g, scr) → ScreenOk s.cfg g scr → i.isRaster = false → i.valuesExist s.cfg = true →
      (microsOf s.cfg g i = [] → exec i s = .next (s.setScreen n { scr with busy := [] })) ∧
      ∀ m ms, microsOf s.cfg g i = m :: ms →
        ∃ scr', perform s.cfg g scr m = some scr' ∧ exec i s = .next (s.setScreen n { scr' with busy := ms })

/-- PutChar writes the cell at the cursor with the default attribute and advances the cursor, wrapping to the next row
after the last column and to row 0 after the last row; nothing else changes (42_console.md R113). -/
def Obligations.PutCharWritesTheCellAndAdvancesTheCursor : Prop :=
  ∀ (c : Config) (g : InstCfg) (scr : Screen) (ch : Byte), c.Wf → g ∈ c.insts → CursorOk c g scr → scr.chars.Wf →
    scr.attrs.Wf →
      ∃ (cs as : Memory) (cx cy : Byte),
        perform c g scr (.putChar ch) = some { scr with chars := cs, attrs := as, curx := cx, cury := cy } ∧
        cs.read (scr.cury.toNat * c.cols g + scr.curx.toNat) = ch ∧
        as.read (scr.cury.toNat * c.cols g + scr.curx.toNat) = scr.defattr ∧
        (∀ a, a ≠ scr.cury.toNat * c.cols g + scr.curx.toNat →
          cs.read a = scr.chars.read a ∧ as.read a = scr.attrs.read a) ∧
        (scr.curx.toNat + 1 < c.cols g → cx.toNat = scr.curx.toNat + 1 ∧ cy = scr.cury) ∧
        (¬scr.curx.toNat + 1 < c.cols g → scr.cury.toNat + 1 < c.rows g →
          cx = 0 ∧ cy.toNat = scr.cury.toNat + 1) ∧
        (¬scr.curx.toNat + 1 < c.cols g → ¬scr.cury.toNat + 1 < c.rows g → cx = 0 ∧ cy = 0)

/-- The whole effect of CLEAR: every cell of the buffer is (0x20, DEFATTR), the cursor is at (0, 0), and every other
register and every address outside the buffer is as before (42_console.md R114, 70_reset_and_hazards.md R158). -/
def Obligations.ClearResetsEveryCellAndTheCursor : Prop :=
  ∀ (c : Config) (g : InstCfg) (scr : Screen), c.Wf → g ∈ c.insts → scr.chars.Wf → scr.attrs.Wf →
    ∃ cs as : Memory,
      performAll c g (microsOf c g .clear) scr = some { scr with chars := cs, attrs := as, curx := 0, cury := 0 } ∧
      (∀ r k, r < c.rows g → k < c.cols g →
        cs.read (r * c.cols g + k) = 0x20 ∧ as.read (r * c.cols g + k) = scr.defattr) ∧
      ∀ a, c.rows g * c.cols g ≤ a → cs.read a = scr.chars.read a ∧ as.read a = scr.attrs.read a

/-- The effect of L PutChar micro-steps in closed form (42_console.md R123): with P = ROWS x COLS and k0 the cursor's
linear position, cell (k0 + j) mod P gets t[j] and DEFATTR, the largest j winning; no other cell is written; the cursor
ends at linear position (k0 + L) mod P. -/
def Obligations.PrintInClosedForm : Prop :=
  ∀ (c : Config) (g : InstCfg) (scr : Screen) (t : List Byte), c.Wf → g ∈ c.insts → CursorOk c g scr → scr.chars.Wf →
    scr.attrs.Wf →
      let cells := c.rows g * c.cols g
      let k0 := scr.cury.toNat * c.cols g + scr.curx.toNat
      ∃ (cs as : Memory) (cx cy : Byte),
        performAll c g (printMicros t) scr = some { scr with chars := cs, attrs := as, curx := cx, cury := cy } ∧
        (∀ j ch, t[j]? = some ch →
          (∀ j', j < j' → j' < t.length → (k0 + j') % cells ≠ (k0 + j) % cells) →
            cs.read ((k0 + j) % cells) = ch ∧ as.read ((k0 + j) % cells) = scr.defattr) ∧
        (∀ a, (∀ j, j < t.length → (k0 + j) % cells ≠ a) →
          cs.read a = scr.chars.read a ∧ as.read a = scr.attrs.read a) ∧
        cy.toNat = (k0 + t.length) % cells / c.cols g ∧ cx.toNat = (k0 + t.length) % cells % c.cols g

/-- A text sent as two consecutive PRINTs has the effect of one PRINT of the whole text (30_encoding.md R77); and
PRINT_AT x, y has the effect of SET_CURSOR x, y followed by PRINT (30_encoding.md R85, 42_console.md R122). -/
def Obligations.PrintsComposeAndPrintAtIsSetCursorThenPrint : Prop :=
  ∀ (c : Config) (g : InstCfg) (scr : Screen) (a b : List Byte) (x y : Byte),
    performAll c g (microsOf c g (.print (a ++ b))) scr =
      (performAll c g (microsOf c g (.print a)) scr).bind (performAll c g (microsOf c g (.print b))) ∧
    performAll c g (microsOf c g (.printAt x y a)) scr =
      (performAll c g (microsOf c g (.setCursor x y)) scr).bind (performAll c g (microsOf c g (.print a)))

/-- PRINT_RIGHT of a nonempty text puts its last character in the last column of the clamped row, and it has the effect
of PRINT_AT at column COLS - M of the text truncated from the left (42_console.md R125). -/
def Obligations.PrintRightEndsInTheLastColumn : Prop :=
  ∀ (c : Config) (g : InstCfg) (scr : Screen) (y : Byte) (t : List Byte) (ch : Byte), c.Wf → g ∈ c.insts →
    scr.chars.Wf → scr.attrs.Wf → t.getLast? = some ch →
      performAll c g (microsOf c g (.printRight y t)) scr =
        performAll c g (printAtMicros (c.cols g - min t.length (c.cols g)) y.toNat (t.drop (t.length - c.cols g))) scr ∧
      ∃ scr', performAll c g (microsOf c g (.printRight y t)) scr = some scr' ∧
        scr'.chars.read (min y.toNat (c.rows g - 1) * c.cols g + (c.cols g - 1)) = ch ∧
        scr'.attrs.read (min y.toNat (c.rows g - 1) * c.cols g + (c.cols g - 1)) = scr.defattr

/-- The whole effect of PRINT_RIGHT and PRINT_CENTER (42_console.md R124, R126): with M = min(L, COLS) the text, dropped
at its left end by L - M (right) or (L - M) div 2 (center) characters, stands in the clamped row from column COLS - M
(right) or (COLS - M) div 2 (center) on; every other cell and every register but the cursor is as before; the cursor is
after the last character written, or at the clamped start where there is none. -/
def Obligations.AlignedPrintsPlaceTheirText : Prop :=
  ∀ (c : Config) (g : InstCfg) (scr : Screen) (y : Byte) (t : List Byte) (right : Bool), c.Wf → g ∈ c.insts →
    scr.chars.Wf → scr.attrs.Wf →
      let w := c.cols g
      let m := min t.length w
      let start := if right then w - m else (w - m) / 2
      let dropped := if right then t.length - m else (t.length - m) / 2
      let row := min y.toNat (c.rows g - 1)
      let stop := (row * w + min start (w - 1) + m) % (c.rows g * w)
      ∃ (cs as : Memory) (cx cy : Byte),
        performAll c g (microsOf c g (if right then .printRight y t else .printCenter y t)) scr =
          some { scr with chars := cs, attrs := as, curx := cx, cury := cy } ∧
        (∀ k, k < m → some (cs.read (row * w + start + k)) = t[dropped + k]? ∧
          as.read (row * w + start + k) = scr.defattr) ∧
        (∀ a, ¬(row * w + start ≤ a ∧ a < row * w + start + m) →
          cs.read a = scr.chars.read a ∧ as.read a = scr.attrs.read a) ∧
        cy.toNat = stop / w ∧ cx.toNat = stop % w

/-- After SET_CURSOR with operands at or past the buffer's dimensions, a PRINT of one character writes it with the default
attribute into the last cell, inside the buffer (42_console.md R128), and the cursor wraps to (0, 0) (R113). Every other
address of both planes and every other register is as before. -/
def Obligations.PrintAfterClampingLandsInTheLastCell : Prop :=
  ∀ (c : Config) (g : InstCfg) (scr : Screen) (x y : Byte) (ch : Byte), c.Wf → g ∈ c.insts → scr.chars.Wf →
    scr.attrs.Wf → c.cols g ≤ x.toNat → c.rows g ≤ y.toNat →
      ∃ cs as : Memory,
        performAll c g (microsOf c g (.setCursor x y) ++ microsOf c g (.print [ch])) scr =
          some { scr with chars := cs, attrs := as, curx := 0, cury := 0 } ∧
        cs.read (c.rows g * c.cols g - 1) = ch ∧ as.read (c.rows g * c.cols g - 1) = scr.defattr ∧
        ∀ a, a ≠ c.rows g * c.cols g - 1 → cs.read a = scr.chars.read a ∧ as.read a = scr.attrs.read a

/-- How many micro-steps each console command has (42_console.md R127). -/
def Obligations.MicroStepCounts : Prop :=
  ∀ (c : Config) (g : InstCfg) (x y v : Byte) (t : List Byte),
    (microsOf c g .clear).length = c.rows g * c.cols g + 1 ∧
    (microsOf c g (.setFont v)).length = 1 ∧ (microsOf c g (.setAttr v)).length = 1 ∧
    (microsOf c g (.setCursor x y)).length = 1 ∧ (microsOf c g .showCursor).length = 1 ∧
    (microsOf c g .hideCursor).length = 1 ∧ (microsOf c g (.print t)).length = t.length ∧
    (microsOf c g (.printAt x y t)).length = t.length + 1 ∧
    (microsOf c g (.printRight y t)).length = min t.length (c.cols g) + 1 ∧
    (microsOf c g (.printCenter y t)).length = min t.length (c.cols g) + 1

/-- The frame of every whole console command (10_state.md R32 to R40, 42_console.md R114 to R126, "Not written"): only
SET_FONT writes FONTSEL, only SET_ATTR writes DEFATTR, only SHOW_CURSOR and HIDE_CURSOR write CURVIS, none of these and not
SET_CURSOR writes a cell, and none of SET_FONT, SET_ATTR, SHOW_CURSOR and HIDE_CURSOR moves the cursor; what the port
holds is not touched. -/
def Obligations.WholeCommandsWriteOnlyTheirRegisters : Prop :=
  ∀ (c : Config) (g : InstCfg) (scr scr' : Screen) (i : Instr), performAll c g (microsOf c g i) scr = some scr' →
    scr'.rx = scr.rx ∧ scr'.busy = scr.busy ∧
    ((∀ v, i ≠ .setFont v) → scr'.fontsel = scr.fontsel) ∧
    ((∀ v, i ≠ .setAttr v) → scr'.defattr = scr.defattr) ∧
    (i ≠ .showCursor → i ≠ .hideCursor → scr'.curvis = scr.curvis) ∧
    (∀ x y v, i = .setFont v ∨ i = .setAttr v ∨ i = .setCursor x y ∨ i = .showCursor ∨ i = .hideCursor →
      scr'.chars = scr.chars ∧ scr'.attrs = scr.attrs) ∧
    (∀ v, i = .setFont v ∨ i = .setAttr v ∨ i = .showCursor ∨ i = .hideCursor →
      scr'.curx = scr.curx ∧ scr'.cury = scr.cury)

/-- Instance isolation (42_console.md R129): a step of instance n's command port changes neither another instance nor FC
nor the raster port, and what it does to instance n does not depend on another instance or FC. -/
def Obligations.ConsoleStepsTouchOnlyTheirInstance : Prop :=
  ∀ (s t s' : State) (n : Nat), stepCommand n s = .next t →
    (t.cfg = s.cfg ∧ t.fc = s.fc ∧ t.rasterRx = s.rasterRx ∧ t.responses = s.responses ∧ t.inputs = s.inputs ∧
      ∀ m, m ≠ n → t.screens[m]? = s.screens[m]?) ∧
    (s'.cfg = s.cfg → s'.screens[n]? = s.screens[n]? →
      ∃ t', stepCommand n s' = .next t' ∧ t'.screens[n]? = t.screens[n]?)

/-! ## Power-on (70_reset_and_hazards.md) -/

/-- Construction (70_reset_and_hazards.md R155, R156): an admitted configuration gives the state after power-on, every
register at its reset value and every cell as drawn, for every draw, and that state meets the invariant; any other
configuration is refused (that the legal ranges of 00_scope.md R13 are checked too is the model's reading, log 11). -/
def Obligations.ConstructionGivesThePowerOnState : Prop :=
  ∀ (c : Config) (drawChars drawAttrs : Nat → Nat → Byte),
    (¬c.Wf → construct c drawChars drawAttrs = .refused .illFormedConfig) ∧
    (c.Wf → ∃ s : State, construct c drawChars drawAttrs = .next s ∧ s.Inv ∧ s.cfg = c ∧ s.fc = 0 ∧
      s.screens.length = c.numInsts ∧
      ∀ n g scr, s.instAt n = some (g, scr) →
        scr.curx = 0 ∧ scr.cury = 0 ∧ scr.curvis = false ∧ scr.defattr = g.initAttr ∧ scr.fontsel = g.initFont ∧
        scr.busy = [] ∧
        ∀ k, k < c.rows g * c.cols g → scr.chars.read k = drawChars n k ∧ scr.attrs.read k = drawAttrs n k)

/-- The state right after reset meets the invariant (with the configuration of log 2 and the draw of log 1). -/
def Obligations.ResetMeetsTheInvariant : Prop := State.reset.Inv

/-! ## The machine as a whole -/

/-- A step of a command port with a whole command runs that command: exec of the decoded command, in the state in which
its words are taken from the port and the grant from the host's moves (20_memory.md R57, 30_encoding.md R76; log 4,
log 6). -/
def Obligations.StepRunsTheDecodedConsoleCommand : Prop :=
  ∀ (s : State) (n : Nat) (more : List Input) (g : InstCfg) (scr : Screen) (i : Instr) (rest : List Word),
    s.cfg.Wf → s.rasterRx = [] → s.inputs = .serve n :: more → s.instAt n = some (g, scr) → scr.busy = [] →
    decode s.cfg (.cmd n) scr.rx = .instr i rest →
      step s = exec i { s with
        inputs := more
        screens := s.screens.set n { scr with rx := rest }
        active := .cmd n }

/-- A step with a whole raster request waiting runs that request: exec of the decoded command, in the state in which its
word is taken from the raster port (20_memory.md R58). That it runs before any word still to arrive is the model's
reading, log 5. -/
def Obligations.StepRunsTheDecodedRasterRequest : Prop :=
  ∀ (s : State) (i : Instr) (rest : List Word), s.cfg.Wf → decode s.cfg .raster s.rasterRx = .instr i rest →
    step s = exec i { s with rasterRx := rest, active := .raster }

/-- A step of a command port with a command in progress performs exactly its next micro-step, and takes no new command
(20_memory.md R57, 10_state.md R45; the grant is log 4). -/
def Obligations.StepPerformsTheNextMicroStep : Prop :=
  ∀ (s : State) (n : Nat) (more : List Input) (g : InstCfg) (scr scr' : Screen) (m : Micro) (ms : List Micro),
    s.cfg.Wf → s.rasterRx = [] → s.inputs = .serve n :: more → s.instAt n = some (g, scr) → scr.busy = m :: ms →
    perform s.cfg g scr m = some scr' →
      step s = .next { s with inputs := more, screens := s.screens.set n { scr' with busy := ms } }

/-- A command port that does not yet hold a whole command performs nothing of it, and a block with nothing to do changes
nothing (30_encoding.md R76, 60_exceptions.md R153; log 4). -/
def Obligations.NothingHappensWithoutAWholeCommand : Prop :=
  (∀ (s : State) (n : Nat) (more : List Input) (g : InstCfg) (scr : Screen), s.cfg.Wf → s.rasterRx = [] →
    s.inputs = .serve n :: more → s.instAt n = some (g, scr) → scr.busy = [] →
    decode s.cfg (.cmd n) scr.rx = .incomplete → step s = .next { s with inputs := more }) ∧
  (∀ s : State, s.cfg.Wf → s.rasterRx = [] → s.inputs = [] → (∀ n, s.ready n = false) → step s = .next s)

/-- A word the host sends waits at its port behind the words sent before (10_state.md R30, 20_memory.md R47), and changes
nothing else. The model's choices: arrivals are data (log 4), a port holds any number of words, so a word is always
appended (log 8), and a move that names a command port that does not exist is refused (log 15). -/
def Obligations.WordsArriveInTheOrderSent : Prop :=
  (∀ (s : State) (n : Nat) (w : Word) (more : List Input) (g : InstCfg) (scr : Screen), s.cfg.Wf → s.rasterRx = [] →
    s.inputs = .send (.cmd n) w :: more → s.instAt n = some (g, scr) →
      step s = .next { s with inputs := more, screens := s.screens.set n { scr with rx := scr.rx ++ [w] } }) ∧
  (∀ (s : State) (w : Word) (more : List Input), s.cfg.Wf → s.rasterRx = [] → s.inputs = .send .raster w :: more →
    step s = .next { s with inputs := more, rasterRx := [w] }) ∧
  (∀ (s : State) (n : Nat) (m : Input) (more : List Input), s.cfg.Wf → s.rasterRx = [] → s.inputs = m :: more →
    s.instAt n = none → (m = .serve n ∨ ∃ w, m = .send (.cmd n) w) → step s = .refused .noSuchPort)

/-- A waiting raster request goes first (60_exceptions.md R144): while one waits, a step changes no instance, so no
micro-step takes effect, takes exactly that request from the raster port, and leaves the host's moves where they are
(that a word still to arrive waits as well is the model's reading, log 5). -/
def Obligations.RasterRequestsGoFirst : Prop :=
  ∀ (s t : State) (w : Word) (rest : List Word), s.rasterRx = w :: rest → step s = .next t →
    t.screens = s.screens ∧ t.inputs = s.inputs ∧ t.rasterRx = rest

/-- No step changes the configuration (10_state.md R42). -/
def Obligations.NoStepChangesTheConfiguration : Prop :=
  ∀ s t : State, step s = .next t → t.cfg = s.cfg

/-- Every step keeps the invariant: the configuration stays admitted, every register legal, the planes in canonical form
and inside the buffer, the command in progress inside the buffer. -/
def Obligations.EveryStepKeepsTheInvariant : Prop :=
  ∀ s t : State, s.Inv → step s = .next t → t.Inv

/-- The cursor invariant (10_state.md R37): in every state reached from power-on, under any configuration, draw and moves
of the host, the cursor of every instance is on a cell of its buffer, and PutChar does not write out of bounds. -/
def Obligations.CursorStaysInTheBufferInEveryReachableState : Prop :=
  ∀ (c : Config) (drawChars drawAttrs : Nat → Nat → Byte) (moves : List Input) (k : Nat) (t : State) (n : Nat)
    (g : InstCfg) (scr : Screen) (ch : Byte),
    c.Wf → SafeRun k { State.powerOn c drawChars drawAttrs with inputs := moves } t → t.instAt n = some (g, scr) →
      scr.curx.toNat < t.cfg.cols g ∧ scr.cury.toNat < t.cfg.rows g ∧ (putChar t.cfg g scr ch).isSome = true

/-- The block raises no fault (60_exceptions.md R138): no step of a state that meets the invariant ends in one. -/
def Obligations.NoStepFaults : Prop :=
  ∀ (s : State) (f : Fault), s.Inv → step s ≠ .fault f

/-- Whatever the decoder refuses refuses the step that meets it, for the decoder's reason, so no part of it is performed;
and a refusal stays for the rest of the run (60_exceptions.md R139). A run refused after k steps is refused, for the same
reason, after any number more; a configuration that is not admitted refuses every step. The model's own: the refusal mark
is the outcome `refused` (log 3); a granted command port, or without moves the lowest-numbered ready one, goes (log 4); a
raster word goes before any word still to arrive (log 5); a format-T command is refused on its first word (log 7); the
legal ranges of 00_scope.md R13 are checked too, and by every step (log 11). -/
def Obligations.RefusalStaysForTheRestOfTheRun : Prop :=
  (∀ (s : State) (e : DecodeError) (rest : List Word), s.cfg.Wf →
    decode s.cfg .raster s.rasterRx = .refuse e rest → step s = .refused (Refusal.ofDecode e)) ∧
  (∀ (s : State) (n : Nat) (g : InstCfg) (scr : Screen) (e : DecodeError) (rest : List Word), s.cfg.Wf →
    s.rasterRx = [] → ((∃ more, s.inputs = .serve n :: more) ∨ (s.inputs = [] ∧ s.firstReady = some n)) →
    s.instAt n = some (g, scr) → scr.busy = [] → decode s.cfg (.cmd n) scr.rx = .refuse e rest →
      step s = .refused (Refusal.ofDecode e)) ∧
  (Refusal.ofDecode .reservedOpcode = .reservedOpcode ∧ Refusal.ofDecode .wrongPort = .wrongPort ∧
    Refusal.ofDecode .nonzeroReservedField = .nonzeroReservedField ∧ Refusal.ofDecode .noSuchFont = .noSuchFont ∧
    Refusal.ofDecode .noSuchInstance = .noSuchInstance) ∧
  (∀ (s : State) (k j : Nat) (r : Refusal), Host.Core.run Sys2Proof.core k s = .refused r →
    Host.Core.run Sys2Proof.core (k + j) s = .refused r) ∧
  (∀ s : State, ¬s.cfg.Wf → step s = .refused .illFormedConfig)

/-- A whole console command runs to completion (42_console.md R127, 70_reset_and_hazards.md R165): granted one step per
micro-step (one step for a command with none), with no raster request between, the port performs the command's
micro-steps in list order and is then free for its next command; nothing else changes (the host's grants as data are
log 4, the first micro-step in the step that takes the command is log 6). -/
def Obligations.ConsoleCommandsRunToCompletion : Prop :=
  ∀ (s : State) (n : Nat) (more : List Input) (g : InstCfg) (scr : Screen) (i : Instr) (rest : List Word) (k : Nat),
    s.Inv → s.rasterRx = [] → s.instAt n = some (g, scr) → scr.busy = [] →
    decode s.cfg (.cmd n) scr.rx = .instr i rest → k = max 1 (microsOf s.cfg g i).length →
    s.inputs = List.replicate k (.serve n) ++ more →
      ∃ scr', performAll s.cfg g (microsOf s.cfg g i) { scr with rx := rest } = some scr' ∧
        SafeRun k s { s with inputs := more, screens := s.screens.set n scr', active := .cmd n }

/-- Steps of two different command ports commute (20_memory.md R62): in either order they lead to the same state, but for
the model's own record of the port served last (log 18). -/
def Obligations.StepsOfDifferentPortsCommute : Prop :=
  ∀ (s t : State) (i j : Nat) (more : List Input), i ≠ j → s.rasterRx = [] →
    s.inputs = .serve i :: .serve j :: more → SafeRun 2 s t →
      ∃ u : State, SafeRun 2 { s with inputs := .serve j :: .serve i :: more } u ∧ u = { t with active := u.active }
end

