-- ==== Sys2Proof/Laws/Memory.lean ====
section
/-! SUPPORT. The laws of a buffer plane: read after write, and that every operation keeps the canonical form. -/

namespace Sys2Proof.Machine

@[simp] theorem Memory.read_nil (a : Nat) : Memory.read [] a = Memory.unlisted := rfl

theorem Memory.read_cons (k : Nat) (v : Byte) (t : Memory) (a : Nat) :
    Memory.read ((k, v) :: t) a = if k = a then v else Memory.read t a := rfl

/-- Below every listed address nothing is listed. -/
theorem Memory.read_below (m : Memory) (a : Nat) (h : ∀ x ∈ m, a < x.1) : m.read a = Memory.unlisted := by
  induction m with
  | nil => rfl
  | cons x t ih =>
    obtain ⟨k, v⟩ := x
    have hk : a < k := h (k, v) (by simp)
    rw [Memory.read_cons, if_neg (by omega), ih fun y hy => h y (by simp [hy])]

/-- Every entry of a written plane is the new one or an old one. -/
theorem Memory.mem_write (m : Memory) (a : Nat) (v : Byte) (x : Host.Cell) (hx : x ∈ m.write a v) :
    (x = (a, v) ∧ v ≠ Memory.unlisted) ∨ x ∈ m := by
  induction m with
  | nil =>
    simp only [Memory.write] at hx
    split at hx
    · simp at hx
    · exact .inl ⟨by simpa using hx, ‹_›⟩
  | cons y t ih =>
    obtain ⟨k, u⟩ := y
    simp only [Memory.write] at hx
    split at hx <;> [skip; split at hx]
    · split at hx
      · exact .inr hx
      · rcases List.mem_cons.1 hx with h | h
        · exact .inl ⟨h, ‹_›⟩
        · exact .inr h
    · split at hx
      · exact .inr (List.mem_cons_of_mem _ hx)
      · rcases List.mem_cons.1 hx with h | h
        · exact .inl ⟨h, ‹_›⟩
        · exact .inr (List.mem_cons_of_mem _ h)
    · rcases List.mem_cons.1 hx with h | h
      · exact .inr (by simp [h])
      · exact (ih h).imp id (List.mem_cons_of_mem _)

/-- A write keeps the canonical form. -/
theorem Memory.wf_write (m : Memory) (a : Nat) (v : Byte) (h : m.Wf) : (m.write a v).Wf := by
  refine ⟨?_, fun x hx => ?_⟩
  · obtain ⟨hp, -⟩ := h
    induction m with
    | nil =>
      simp only [Memory.write]
      split <;> simp
    | cons y t ih =>
      obtain ⟨k, u⟩ := y
      obtain ⟨hk, ht⟩ := List.pairwise_cons.1 hp
      simp only [Memory.write]
      split <;> [skip; split]
      · split
        · exact hp
        · refine List.pairwise_cons.2 ⟨fun z hz => ?_, hp⟩
          rcases List.mem_cons.1 hz with h | h
          · subst h; assumption
          · exact Nat.lt_trans ‹_› (hk z h)
      · subst k
        split
        · exact ht
        · exact List.pairwise_cons.2 ⟨hk, ht⟩
      · refine List.pairwise_cons.2 ⟨fun z hz => ?_, ih ht⟩
        rcases Memory.mem_write t a v z hz with ⟨h, -⟩ | h
        · subst h; simp; omega
        · exact hk z h
  · rcases Memory.mem_write m a v x hx with ⟨rfl, hv⟩ | h'
    · exact hv
    · exact h.2 x h'

/-- A write inside the plane lists no address outside it. -/
theorem Memory.below_write (m : Memory) (a n : Nat) (v : Byte) (h : m.Below n) (ha : a < n) : (m.write a v).Below n := by
  intro x hx
  rcases Memory.mem_write m a v x hx with ⟨rfl, -⟩ | h'
  · exact ha
  · exact h x h'

/-- A read after a write to the same address gives the value written. -/
theorem Memory.read_write_same (m : Memory) (a : Nat) (v : Byte) (h : m.Wf) : (m.write a v).read a = v := by
  obtain ⟨hp, -⟩ := h
  induction m with
  | nil =>
    simp only [Memory.write]
    split
    · simp [*]
    · simp [Memory.read_cons]
  | cons y t ih =>
    obtain ⟨k, u⟩ := y
    obtain ⟨hk, ht⟩ := List.pairwise_cons.1 hp
    simp only [Memory.write]
    split <;> [skip; split]
    · split
      · rw [Memory.read_below _ _ ?_, ‹v = _›]
        intro z hz
        rcases List.mem_cons.1 hz with h | h
        · subst h; assumption
        · exact Nat.lt_trans ‹_› (hk z h)
      · simp [Memory.read_cons]
    · subst k
      split
      · rw [Memory.read_below _ _ hk, ‹v = _›]
      · simp [Memory.read_cons]
    · rw [Memory.read_cons, if_neg (by omega), ih ht]

/-- A write leaves every other address alone. -/
theorem Memory.read_write_other (m : Memory) (a b : Nat) (v : Byte) (hab : b ≠ a) :
    (m.write a v).read b = m.read b := by
  induction m with
  | nil =>
    simp only [Memory.write]
    split
    · rfl
    · simp [Memory.read_cons, Ne.symm hab]
  | cons y t ih =>
    obtain ⟨k, u⟩ := y
    simp only [Memory.write]
    split <;> [skip; split]
    · split
      · rfl
      · simp [Memory.read_cons, Ne.symm hab]
    · subst k
      split <;> simp [Memory.read_cons, Ne.symm hab]
    · simp [Memory.read_cons, ih]

theorem Memory.read_write (m : Memory) (a b : Nat) (v : Byte) (h : m.Wf) :
    (m.write a v).read b = if b = a then v else m.read b := by
  split
  · subst b; exact Memory.read_write_same m a v h
  · exact Memory.read_write_other m a b v ‹_›

/-- A read gives a listed value, or what an unlisted address reads as. -/
theorem Memory.read_of_mem (m : Memory) (h : m.Wf) (x : Host.Cell) (hx : x ∈ m) : m.read x.1 = x.2 := by
  obtain ⟨hp, -⟩ := h
  induction m with
  | nil => simp at hx
  | cons y t ih =>
    obtain ⟨k, u⟩ := y
    obtain ⟨hk, ht⟩ := List.pairwise_cons.1 hp
    rcases List.mem_cons.1 hx with h | h
    · subst h; simp [Memory.read_cons]
    · rw [Memory.read_cons, if_neg (Nat.ne_of_lt (hk x h)), ih h ht]

/-- The plane drawn after power-on is in canonical form, lists only its cells, and reads as the draw. -/
theorem Memory.ofDraw_spec (n : Nat) (draw : Nat → Byte) :
    (Memory.ofDraw n draw).Wf ∧ (Memory.ofDraw n draw).Below n ∧
      ∀ a, (Memory.ofDraw n draw).read a = if a < n then draw a else Memory.unlisted := by
  induction n with
  | zero => exact ⟨⟨by simp [Memory.ofDraw], by simp [Memory.ofDraw]⟩, by simp [Memory.ofDraw], by simp [Memory.ofDraw]⟩
  | succ n ih =>
    obtain ⟨hw, hb, hr⟩ := ih
    have e : Memory.ofDraw (n + 1) draw = (Memory.ofDraw n draw).write n (draw n) := by
      simp [Memory.ofDraw, List.range_succ]
    rw [e]
    refine ⟨Memory.wf_write _ _ _ hw, Memory.below_write _ _ _ _ (fun x hx => Nat.lt_succ_of_lt (hb x hx)) (by omega), ?_⟩
    intro a
    rw [Memory.read_write _ _ _ _ hw, hr]
    by_cases h : a = n
    · subst h; simp
    · rw [if_neg h]
      by_cases h' : a < n
      · rw [if_pos h', if_pos (by omega)]
      · rw [if_neg h', if_neg (by omega)]

end Sys2Proof.Machine
end

