-- ==== Sys2Proof/Laws/State.lean ====
section
/-! SUPPORT. One lemma per field per update of State and Screen, and reading an instance back after an update. -/

namespace Sys2Proof.Machine

variable (s : State) (i : Nat) (scr : Screen)

/-! ## `State.setScreen` -/

@[simp] theorem State.setScreen_cfg : (s.setScreen i scr).cfg = s.cfg := rfl
@[simp] theorem State.setScreen_fc : (s.setScreen i scr).fc = s.fc := rfl
@[simp] theorem State.setScreen_screens : (s.setScreen i scr).screens = s.screens.set i scr := rfl
@[simp] theorem State.setScreen_rasterRx : (s.setScreen i scr).rasterRx = s.rasterRx := rfl
@[simp] theorem State.setScreen_responses : (s.setScreen i scr).responses = s.responses := rfl
@[simp] theorem State.setScreen_active : (s.setScreen i scr).active = s.active := rfl
@[simp] theorem State.setScreen_inputs : (s.setScreen i scr).inputs = s.inputs := rfl

/-! ## `State.takeCommand` and `State.takeRaster` -/

variable (rest : List Word)

@[simp] theorem State.takeCommand_cfg : (s.takeCommand i scr rest).cfg = s.cfg := rfl
@[simp] theorem State.takeCommand_fc : (s.takeCommand i scr rest).fc = s.fc := rfl
@[simp] theorem State.takeCommand_screens :
    (s.takeCommand i scr rest).screens = s.screens.set i { scr with rx := rest } := rfl
@[simp] theorem State.takeCommand_rasterRx : (s.takeCommand i scr rest).rasterRx = s.rasterRx := rfl
@[simp] theorem State.takeCommand_responses : (s.takeCommand i scr rest).responses = s.responses := rfl
@[simp] theorem State.takeCommand_active : (s.takeCommand i scr rest).active = .cmd i := rfl
@[simp] theorem State.takeCommand_inputs : (s.takeCommand i scr rest).inputs = s.inputs := rfl

@[simp] theorem State.takeRaster_cfg : (s.takeRaster rest).cfg = s.cfg := rfl
@[simp] theorem State.takeRaster_fc : (s.takeRaster rest).fc = s.fc := rfl
@[simp] theorem State.takeRaster_screens : (s.takeRaster rest).screens = s.screens := rfl
@[simp] theorem State.takeRaster_rasterRx : (s.takeRaster rest).rasterRx = rest := rfl
@[simp] theorem State.takeRaster_responses : (s.takeRaster rest).responses = s.responses := rfl
@[simp] theorem State.takeRaster_active : (s.takeRaster rest).active = .raster := rfl
@[simp] theorem State.takeRaster_inputs : (s.takeRaster rest).inputs = s.inputs := rfl

/-! ## Instances -/

/-- An instance is its parameters and its state, both present. -/
theorem State.instAt_eq_some (g : InstCfg) :
    s.instAt i = some (g, scr) ↔ s.cfg.insts[i]? = some g ∧ s.screens[i]? = some scr := by
  unfold State.instAt
  cases s.cfg.insts[i]? <;> cases s.screens[i]? <;> simp

/-- Replacing an existing instance's state and reading it back. -/
theorem State.instAt_setScreen_self (g : InstCfg) (scr' : Screen) (h : s.instAt i = some (g, scr)) :
    (s.setScreen i scr').instAt i = some (g, scr') := by
  rw [State.instAt_eq_some] at h ⊢
  obtain ⟨hg, hs⟩ := h
  refine ⟨hg, ?_⟩
  rw [State.setScreen_screens, List.getElem?_set_self (List.getElem?_eq_some_iff.1 hs).1]

/-- Replacing one instance's state leaves every other instance alone. -/
theorem State.instAt_setScreen_other (j : Nat) (scr' : Screen) (h : j ≠ i) :
    (s.setScreen i scr').instAt j = s.instAt j := by
  unfold State.instAt
  rw [State.setScreen_cfg, State.setScreen_screens, List.getElem?_set_ne (Ne.symm h)]

/-- Taking a command from a port and reading the instance back. -/
theorem State.instAt_takeCommand_self (g : InstCfg) (h : s.instAt i = some (g, scr)) :
    (s.takeCommand i scr rest).instAt i = some (g, { scr with rx := rest }) :=
  State.instAt_setScreen_self s i scr g _ h

theorem State.instAt_takeCommand_other (j : Nat) (h : j ≠ i) :
    (s.takeCommand i scr rest).instAt j = s.instAt j :=
  State.instAt_setScreen_other s i j _ h

/-- Writing an instance twice keeps the last state. -/
theorem State.setScreen_setScreen (a b : Screen) : (s.setScreen i a).setScreen i b = s.setScreen i b := by
  simp [State.setScreen, List.set_set]

end Sys2Proof.Machine
end

