-- ==== Sys2Proof/Laws/Ops.lean ====
section
/-! SUPPORT. What each shared operation can do, said once: cells, micro-steps, the command in progress, the port a
meaning runs on, and the step. -/

namespace Sys2Proof.Machine

/-! ## Cells -/

/-- A cell index is inside the buffer. -/
theorem cellIndex_lt (c : Config) (g : InstCfg) (r k : Nat) (hr : r < c.rows g) (hk : k < c.cols g) :
    cellIndex c g r k < c.rows g * c.cols g := by
  unfold cellIndex
  calc r * c.cols g + k < r * c.cols g + c.cols g := by omega
    _ = (r + 1) * c.cols g := by ring
    _ ≤ c.rows g * c.cols g := Nat.mul_le_mul_right _ hr

/-- Different cells have different indexes. -/
theorem cellIndex_inj (c : Config) (g : InstCfg) (r k r' k' : Nat) (hk : k < c.cols g) (hk' : k' < c.cols g)
    (h : cellIndex c g r k = cellIndex c g r' k') : r = r' ∧ k = k' := by
  unfold cellIndex at h
  have h1 : (r * c.cols g + k) / c.cols g = r := by
    rw [Nat.mul_comm, Nat.mul_add_div (by omega), Nat.div_eq_of_lt hk, Nat.add_zero]
  have h2 : (r' * c.cols g + k') / c.cols g = r' := by
    rw [Nat.mul_comm, Nat.mul_add_div (by omega), Nat.div_eq_of_lt hk', Nat.add_zero]
  have hr : r = r' := by rw [← h1, ← h2, h]
  subst hr
  exact ⟨rfl, by omega⟩

/-- A cell write happens exactly inside the buffer, and writes both planes at one index. -/
theorem cellWrite_eq_some (c : Config) (g : InstCfg) (scr scr' : Screen) (r k : Nat) (ch att : Byte) :
    cellWrite c g scr r k ch att = some scr' ↔
      r < c.rows g ∧ k < c.cols g ∧
        scr' = { scr with
          chars := scr.chars.write (cellIndex c g r k) ch, attrs := scr.attrs.write (cellIndex c g r k) att } := by
  unfold cellWrite
  split
  · simp_all [eq_comm]
  · simp only [reduceCtorEq, false_iff]
    intro h
    exact absurd ⟨h.1, h.2.1⟩ ‹¬(r < c.rows g ∧ k < c.cols g)›

/-- PutChar with the cursor in the buffer. -/
theorem putChar_eq (c : Config) (g : InstCfg) (scr : Screen) (ch : Byte) (h : CursorOk c g scr) :
    putChar c g scr ch = some (advanceCursor c g { scr with
      chars := scr.chars.write (cellIndex c g scr.cury.toNat scr.curx.toNat) ch
      attrs := scr.attrs.write (cellIndex c g scr.cury.toNat scr.curx.toNat) scr.defattr }) := by
  unfold putChar cellWrite
  rw [if_pos ⟨h.2, h.1⟩, Option.map_some]

/-- Advancing the cursor moves the cursor only. -/
theorem advanceCursor_eq (c : Config) (g : InstCfg) (scr : Screen) :
    advanceCursor c g scr =
      { scr with curx := (advanceCursor c g scr).curx, cury := (advanceCursor c g scr).cury } := by
  unfold advanceCursor
  split <;> [rfl; split <;> rfl]

/-- The cursor after a character is the next linear position, modulo the buffer (42_console.md R113, R123). -/
theorem advanceCursor_linear (c : Config) (g : InstCfg) (scr : Screen) (hc : c.cols g ≤ 256) (hr : c.rows g ≤ 256)
    (h : CursorOk c g scr) :
    CursorOk c g (advanceCursor c g scr) ∧
      (advanceCursor c g scr).cury.toNat * c.cols g + (advanceCursor c g scr).curx.toNat =
        (scr.cury.toNat * c.cols g + scr.curx.toNat + 1) % (c.rows g * c.cols g) := by
  obtain ⟨hx, hy⟩ := h
  have hlt := cellIndex_lt c g _ _ hy hx
  unfold cellIndex at hlt
  unfold advanceCursor CursorOk
  split
  · rename_i h1
    have e : (scr.curx + 1).toNat = scr.curx.toNat + 1 := by
      rw [BitVec.toNat_add]; simp; omega
    have := cellIndex_lt c g _ _ hy h1
    unfold cellIndex at this
    refine ⟨⟨by rw [e]; exact h1, hy⟩, ?_⟩
    simp only [e]
    rw [Nat.mod_eq_of_lt (by omega)]; omega
  · split
    · rename_i h1 h2
      have e : (scr.cury + 1).toNat = scr.cury.toNat + 1 := by
        rw [BitVec.toNat_add]; simp; omega
      have hx' : scr.curx.toNat + 1 = c.cols g := by omega
      refine ⟨⟨by simp; omega, by rw [e]; exact h2⟩, ?_⟩
      have := cellIndex_lt c g _ 0 h2 (by omega)
      unfold cellIndex at this
      have e2 : scr.cury.toNat * c.cols g + scr.curx.toNat + 1 = (scr.cury.toNat + 1) * c.cols g := by
        rw [Nat.add_assoc, hx', Nat.add_mul, Nat.one_mul]
      rw [e2, Nat.mod_eq_of_lt (by omega), e]; rfl
    · rename_i h1 h2
      have hx' : scr.curx.toNat + 1 = c.cols g := by omega
      have hy' : scr.cury.toNat + 1 = c.rows g := by omega
      refine ⟨⟨by simp; omega, by simp; omega⟩, ?_⟩
      have e2 : scr.cury.toNat * c.cols g + scr.curx.toNat + 1 = c.rows g * c.cols g := by
        rw [Nat.add_assoc, hx', ← hy', Nat.add_mul, Nat.one_mul]
      rw [e2, Nat.mod_self]; simp

/-- A clamped position is the smaller of the operand and the last valid one (42_console.md R112). -/
theorem setCursorClamped_toNat (c : Config) (g : InstCfg) (scr : Screen) (x y : Nat) (hc : c.cols g ≤ 256)
    (hr : c.rows g ≤ 256) :
    (setCursorClamped c g scr x y).curx.toNat = min x (c.cols g - 1) ∧
      (setCursorClamped c g scr x y).cury.toNat = min y (c.rows g - 1) := by
  simp only [setCursorClamped, clampX, clampY, BitVec.toNat_ofNat]
  omega

/-! ## Micro-steps -/

/-- A micro-step reads and writes neither the words the port holds nor the command in progress. -/
theorem perform_port (c : Config) (g : InstCfg) (scr : Screen) (m : Micro) (rx : List Word) (busy : List Micro) :
    perform c g { scr with rx := rx, busy := busy } m =
      (perform c g scr m).map fun scr' => { scr' with rx := rx, busy := busy } := by
  cases m with
  | clearCell r k => simp only [perform, cellWrite]; split <;> rfl
  | putChar ch =>
    simp only [perform, putChar, cellWrite]
    split
    · simp only [Option.map_some, advanceCursor]
      split <;> [rfl; split <;> rfl]
    · rfl
  | home => rfl
  | setCursor x y => rfl
  | setFont v => rfl
  | setAttr v => rfl
  | showCursor => rfl
  | hideCursor => rfl

/-- What the port holds is not touched by a micro-step. -/
theorem perform_keeps_port (c : Config) (g : InstCfg) (scr scr' : Screen) (m : Micro)
    (h : perform c g scr m = some scr') : scr'.rx = scr.rx ∧ scr'.busy = scr.busy := by
  have e := perform_port c g scr m scr.rx scr.busy
  rw [h, Option.map_some, Option.some_inj] at e
  rw [e]
  exact ⟨rfl, rfl⟩

/-- Micro-steps in a row, split in two. -/
theorem performAll_append (c : Config) (g : InstCfg) (a b : List Micro) (scr : Screen) :
    performAll c g (a ++ b) scr = (performAll c g a scr).bind (performAll c g b) := by
  induction a generalizing scr with
  | nil => rfl
  | cons m ms ih =>
    simp only [List.cons_append, performAll]
    cases perform c g scr m with
    | none => rfl
    | some scr' => exact ih scr'

/-- The part of `ScreenOk` that does not speak of the command in progress. -/
abbrev RegsOk (c : Config) (g : InstCfg) (scr : Screen) : Prop :=
  CursorOk c g scr ∧ scr.fontsel.toNat < c.numFonts ∧ PlaneOk c g scr.chars ∧ PlaneOk c g scr.attrs

/-- A micro-step that names only what exists succeeds from a legal state and keeps it legal. -/
theorem perform_ok (c : Config) (g : InstCfg) (scr : Screen) (m : Micro) (hw : c.InstWf g) (h : RegsOk c g scr)
    (hm : m.Ok c g = true) : ∃ scr', perform c g scr m = some scr' ∧ RegsOk c g scr' := by
  obtain ⟨-, -, ⟨⟨hc1, hc2⟩, hr1, hr2⟩, -⟩ := hw
  obtain ⟨hcur, hf, hch, hat⟩ := h
  have write_ok (r k : Nat) (ch att : Byte) (hr : r < c.rows g) (hk : k < c.cols g) :
      PlaneOk c g (scr.chars.write (cellIndex c g r k) ch) ∧ PlaneOk c g (scr.attrs.write (cellIndex c g r k) att) :=
    ⟨⟨Memory.wf_write _ _ _ hch.1, Memory.below_write _ _ _ _ hch.2 (cellIndex_lt c g r k hr hk)⟩,
     ⟨Memory.wf_write _ _ _ hat.1, Memory.below_write _ _ _ _ hat.2 (cellIndex_lt c g r k hr hk)⟩⟩
  cases m with
  | clearCell r k =>
    simp only [Micro.Ok, Bool.and_eq_true, decide_eq_true_eq] at hm
    refine ⟨_, (cellWrite_eq_some ..).2 ⟨hm.1, hm.2, rfl⟩, hcur, hf, write_ok r k _ _ hm.1 hm.2⟩
  | putChar ch =>
    refine ⟨_, putChar_eq c g scr ch hcur, ?_⟩
    have hw' := write_ok scr.cury.toNat scr.curx.toNat ch scr.defattr hcur.2 hcur.1
    have hadv := (advanceCursor_linear c g { scr with
      chars := scr.chars.write (cellIndex c g scr.cury.toNat scr.curx.toNat) ch
      attrs := scr.attrs.write (cellIndex c g scr.cury.toNat scr.curx.toNat) scr.defattr } hc2 hr2 hcur).1
    rw [advanceCursor_eq] at hadv ⊢
    exact ⟨hadv, hf, hw'⟩
  | home => exact ⟨_, rfl, ⟨by simp; omega, by simp; omega⟩, hf, hch, hat⟩
  | setCursor x y =>
    refine ⟨_, rfl, ?_, hf, hch, hat⟩
    have := setCursorClamped_toNat c g scr x y hc2 hr2
    unfold CursorOk
    rw [this.1, this.2]; omega
  | setFont v =>
    simp only [Micro.Ok, decide_eq_true_eq] at hm
    exact ⟨_, rfl, hcur, hm, hch, hat⟩
  | setAttr v => exact ⟨_, rfl, hcur, hf, hch, hat⟩
  | showCursor => exact ⟨_, rfl, hcur, hf, hch, hat⟩
  | hideCursor => exact ⟨_, rfl, hcur, hf, hch, hat⟩

/-- Every micro-step of a console command whose values exist names only what exists. -/
theorem microsOf_ok (c : Config) (g : InstCfg) (i : Instr) (hv : i.valuesExist c = true) :
    ∀ m ∈ microsOf c g i, m.Ok c g = true := by
  have hp (t : List Byte) : ∀ m ∈ printMicros t, m.Ok c g = true := by
    intro m hm
    obtain ⟨ch, -, rfl⟩ := List.mem_map.1 hm
    rfl
  have hpa (x y : Nat) (t : List Byte) : ∀ m ∈ printAtMicros x y t, m.Ok c g = true := by
    intro m hm
    rcases List.mem_cons.1 hm with rfl | hm
    · rfl
    · exact hp t m hm
  cases i with
  | clear =>
    intro m hm
    rcases List.mem_append.1 hm with hm | hm
    · obtain ⟨r, hr, hm⟩ := List.mem_flatMap.1 hm
      obtain ⟨k, hk, rfl⟩ := List.mem_map.1 hm
      simp only [Micro.Ok, Bool.and_eq_true, decide_eq_true_eq]
      exact ⟨List.mem_range.1 hr, List.mem_range.1 hk⟩
    · rw [List.mem_singleton.1 hm]; rfl
  | setFont v => intro m hm; rw [List.mem_singleton.1 hm]; exact hv
  | setAttr v => intro m hm; rw [List.mem_singleton.1 hm]; rfl
  | setCursor x y => intro m hm; rw [List.mem_singleton.1 hm]; rfl
  | showCursor => intro m hm; rw [List.mem_singleton.1 hm]; rfl
  | hideCursor => intro m hm; rw [List.mem_singleton.1 hm]; rfl
  | print t => exact hp t
  | printAt x y t => exact hpa _ _ t
  | printRight y t => exact hpa _ _ _
  | printCenter y t => exact hpa _ _ _
  | rasterize inst line ratio => simp [microsOf]
  | frameTick => simp [microsOf]

/-! ## The command in progress and the port -/

/-- What `State.runMicros` can answer. -/
theorem State.runMicros_next (s t : State) (i : Nat) (g : InstCfg) (scr : Screen) (ms : List Micro)
    (h : s.runMicros i g scr ms = .next t) :
    (ms = [] ∧ t = s.setScreen i { scr with busy := [] }) ∨
      ∃ m rest scr', ms = m :: rest ∧ perform s.cfg g scr m = some scr' ∧
        t = s.setScreen i { scr' with busy := rest } := by
  cases ms with
  | nil => simp only [State.runMicros, Host.Outcome.next.injEq] at h; exact .inl ⟨rfl, h.symm⟩
  | cons m rest =>
    simp only [State.runMicros] at h
    split at h
    · cases h
    · rename_i scr' hp
      simp only [Host.Outcome.next.injEq] at h
      exact .inr ⟨m, rest, scr', rfl, hp, h.symm⟩

/-- From a legal state, micro-steps that name only what exists run, and leave a legal state. -/
theorem State.runMicros_ok (s : State) (i : Nat) (g : InstCfg) (scr : Screen) (ms : List Micro)
    (hw : s.cfg.InstWf g) (h : RegsOk s.cfg g scr) (hm : ∀ m ∈ ms, m.Ok s.cfg g = true) :
    ∃ scr', s.runMicros i g scr ms = .next (s.setScreen i scr') ∧ ScreenOk s.cfg g scr' := by
  cases ms with
  | nil => exact ⟨_, rfl, h.1, h.2.1, h.2.2.1, h.2.2.2, by simp⟩
  | cons m rest =>
    obtain ⟨scr', hp, hok⟩ := perform_ok s.cfg g scr m hw h (hm m (by simp))
    refine ⟨{ scr' with busy := rest }, by simp only [State.runMicros, hp], hok.1, hok.2.1, hok.2.2.1, hok.2.2.2, ?_⟩
    exact fun m' hm' => hm m' (by simp [hm'])

/-- A console meaning runs on the instance of the port its command came from. -/
theorem State.onPort_eq (s : State) (n : Nat) (g : InstCfg) (scr : Screen)
    (k : Nat → InstCfg → Screen → Host.Outcome State Fault Refusal) (ha : s.active = .cmd n)
    (hi : s.instAt n = some (g, scr)) : s.onPort k = k n g scr := by
  simp only [State.onPort, ha, hi]

/-- On the raster port a console meaning is refused (60_exceptions.md R140). -/
theorem State.onPort_raster (s : State) (k : Nat → InstCfg → Screen → Host.Outcome State Fault Refusal)
    (ha : s.active = .raster) : s.onPort k = .refused .wrongPort := by
  simp only [State.onPort, ha]

/-- Every console command whose values exist runs its micro-steps on the instance of its port. -/
theorem exec_console (s : State) (n : Nat) (g : InstCfg) (scr : Screen) (i : Instr) (ha : s.active = .cmd n)
    (hi : s.instAt n = some (g, scr)) (hr : i.isRaster = false) (hv : i.valuesExist s.cfg = true) :
    exec i s = s.runMicros n g scr (microsOf s.cfg g i) := by
  cases i with
  | setFont v =>
    simp only [Instr.valuesExist, decide_eq_true_eq] at hv
    simp only [exec, execSetFont, State.onPort_eq s n g scr _ ha hi, if_pos hv, microsOf]
  | rasterize inst line ratio => cases hr
  | frameTick => cases hr
  | clear => exact State.onPort_eq s n g scr _ ha hi
  | setAttr v => exact State.onPort_eq s n g scr _ ha hi
  | setCursor x y => exact State.onPort_eq s n g scr _ ha hi
  | showCursor => exact State.onPort_eq s n g scr _ ha hi
  | hideCursor => exact State.onPort_eq s n g scr _ ha hi
  | print t => exact State.onPort_eq s n g scr _ ha hi
  | printAt x y t => exact State.onPort_eq s n g scr _ ha hi
  | printRight y t => exact State.onPort_eq s n g scr _ ha hi
  | printCenter y t => exact State.onPort_eq s n g scr _ ha hi

/-- A console command with no meaning here: on the raster port, or a value that does not exist, or no such port. -/
theorem exec_console_next (s t : State) (i : Instr) (hr : i.isRaster = false) (h : exec i s = .next t) :
    ∃ n g scr, s.active = .cmd n ∧ s.instAt n = some (g, scr) ∧ i.valuesExist s.cfg = true ∧
      s.runMicros n g scr (microsOf s.cfg g i) = .next t := by
  have port (k : Nat → InstCfg → Screen → Host.Outcome State Fault Refusal) (hk : s.onPort k = .next t) :
      ∃ n g scr, s.active = .cmd n ∧ s.instAt n = some (g, scr) := by
    simp only [State.onPort] at hk
    split at hk
    · cases hk
    · rename_i n ha
      split at hk
      · cases hk
      · rename_i g scr hi
        exact ⟨n, g, scr, ha, hi⟩
  have main (hv : i.valuesExist s.cfg = true) (hp : ∃ n g scr, s.active = .cmd n ∧ s.instAt n = some (g, scr)) :
      ∃ n g scr, s.active = .cmd n ∧ s.instAt n = some (g, scr) ∧ i.valuesExist s.cfg = true ∧
        s.runMicros n g scr (microsOf s.cfg g i) = .next t := by
    obtain ⟨n, g, scr, ha, hi⟩ := hp
    exact ⟨n, g, scr, ha, hi, hv, (exec_console s n g scr i ha hi hr hv).symm.trans h⟩
  cases i with
  | setFont v =>
    obtain ⟨n, g, scr, ha, hi⟩ := port _ h
    refine main ?_ ⟨n, g, scr, ha, hi⟩
    simp only [exec, execSetFont, State.onPort_eq s n g scr _ ha hi] at h
    split at h
    · simpa [Instr.valuesExist]
    · cases h
  | rasterize inst line ratio => cases hr
  | frameTick => cases hr
  | clear => exact main rfl (port _ h)
  | setAttr v => exact main rfl (port _ h)
  | setCursor x y => exact main rfl (port _ h)
  | showCursor => exact main rfl (port _ h)
  | hideCursor => exact main rfl (port _ h)
  | print t => exact main rfl (port _ h)
  | printAt x y t => exact main rfl (port _ h)
  | printRight y t => exact main rfl (port _ h)
  | printCenter y t => exact main rfl (port _ h)

/-- What a raster-port command can answer: a response appended, or the frame counter incremented. -/
theorem exec_raster_next (s t : State) (i : Instr) (hr : i.isRaster = true) (h : exec i s = .next t) :
    s.active = .raster ∧
      ((∃ inst line ratio g scr r, i = .rasterize inst line ratio ∧ s.instAt inst.toNat = some (g, scr) ∧
          rasterResponse s.cfg g scr s.fc line ratio = some r ∧ t = { s with responses := s.responses ++ [r] }) ∨
        (i = .frameTick ∧ t = { s with fc := s.fc + 1 })) := by
  cases i with
  | rasterize inst line ratio =>
    simp only [exec, execRasterize] at h
    split at h
    · cases h
    · rename_i ha
      split at h
      · cases h
      · rename_i g scr hi
        split at h
        · cases h
        · rename_i r hresp
          simp only [Host.Outcome.next.injEq] at h
          exact ⟨ha, .inl ⟨inst, line, ratio, g, scr, r, rfl, hi, hresp, h.symm⟩⟩
  | frameTick =>
    simp only [exec, execFrameTick] at h
    split at h
    · cases h
    · simp only [Host.Outcome.next.injEq] at h
      exact ⟨‹_›, .inr ⟨rfl, h.symm⟩⟩
  | clear => cases hr
  | setFont v => cases hr
  | setAttr v => cases hr
  | setCursor x y => cases hr
  | showCursor => cases hr
  | hideCursor => cases hr
  | print t => cases hr
  | printAt x y t => cases hr
  | printRight y t => cases hr
  | printCenter y t => cases hr

end Sys2Proof.Machine
end

