-- ==== Sys2Proof/Laws/Words.lean ====
section
/-! SUPPORT. Reading fields of words as numbers, and the packing of text: the small lemmas of Decode.lean. -/

namespace Sys2Proof.Laws

/-- A concatenation read as a number. -/
theorem toNat_append_eq {m n : Nat} (x : BitVec m) (y : BitVec n) :
    (x ++ y).toNat = x.toNat * 2 ^ n + y.toNat := by
  rw [BitVec.toNat_append, ← Nat.shiftLeft_add_eq_or_of_lt y.isLt, Nat.shiftLeft_eq]

/-- A field read as a number. -/
theorem toNat_field {n : Nat} (x : BitVec n) (start len : Nat) :
    (x.extractLsb' start len).toNat = x.toNat / 2 ^ start % 2 ^ len := by
  rw [BitVec.extractLsb'_toNat, Nat.shiftRight_eq_div_pow]

/-- A field is zero exactly when its number is. -/
theorem field_eq_zero {n : Nat} (x : BitVec n) (start len : Nat) :
    x.extractLsb' start len = 0 ↔ x.toNat / 2 ^ start % 2 ^ len = 0 := by
  rw [← toNat_field, ← BitVec.toNat_inj]; simp

theorem opOf_eq (w : Word) : opOf w = w.toNat / 2 ^ 28 % 2 ^ 4 := toNat_field w 28 4

theorem fieldN_eq (w : Word) : fieldN w = w.toNat / 2 ^ 16 % 2 ^ 12 := toNat_field w 16 12

theorem opOf_lt (w : Word) : opOf w < 16 := by rw [opOf_eq]; omega

theorem fieldN_lt (w : Word) : fieldN w < 4096 := by rw [fieldN_eq]; omega

/-- The number of a format-T command word. -/
theorem textWord_toNat (op : BitVec 4) (n : Nat) (y x : Byte) (hn : n ≤ 4095) :
    (textWord op n y x).toNat = ((op.toNat * 4096 + n) * 256 + y.toNat) * 256 + x.toNat := by
  simp only [textWord, toNat_append_eq, BitVec.toNat_ofNat]
  omega

theorem textWord_op (op : BitVec 4) (n : Nat) (y x : Byte) (hn : n ≤ 4095) :
    opOf (textWord op n y x) = op.toNat := by
  have := op.isLt; have := y.isLt; have := x.isLt
  rw [opOf_eq, textWord_toNat op n y x hn]; omega

theorem textWord_n (op : BitVec 4) (n : Nat) (y x : Byte) (hn : n ≤ 4095) :
    fieldN (textWord op n y x) = n := by
  have := op.isLt; have := y.isLt; have := x.isLt
  rw [fieldN_eq, textWord_toNat op n y x hn]; omega

theorem textWord_y (op : BitVec 4) (n : Nat) (y x : Byte) (hn : n ≤ 4095) :
    fieldY (textWord op n y x) = y := by
  apply BitVec.eq_of_toNat_eq
  have := op.isLt; have := y.isLt; have := x.isLt
  rw [fieldY, toNat_field, textWord_toNat op n y x hn]; omega

theorem textWord_x (op : BitVec 4) (n : Nat) (y x : Byte) (hn : n ≤ 4095) :
    fieldX (textWord op n y x) = x := by
  apply BitVec.eq_of_toNat_eq
  have := op.isLt; have := y.isLt; have := x.isLt
  rw [fieldX, toNat_field, textWord_toNat op n y x hn]; omega

/-- The bytes of a packed word are the characters packed, the first lowest (30_encoding.md R74). -/
theorem wordBytes_packWord (a b c d : Byte) : wordBytes (packWord a b c d) = [a, b, c, d] := by
  have ha := a.isLt; have hb := b.isLt; have hc := c.isLt; have hd := d.isLt
  simp only [wordBytes, packWord, List.cons.injEq, and_true]
  refine ⟨?_, ?_, ?_, ?_⟩ <;> apply BitVec.eq_of_toNat_eq <;> simp only [toNat_field, toNat_append_eq] <;> omega

/-- A text takes (N + 3) div 4 data words (30_encoding.md R72). -/
theorem packText_length (t : List Byte) : (packText t).length = (t.length + 3) / 4 := by
  induction t using packText.induct with
  | case1 => rfl
  | case2 => simp [packText]
  | case3 => simp [packText]
  | case4 => simp [packText]
  | case5 a b c d rest ih => simp only [packText, List.length_cons, ih]; omega

/-- The text read back from its own data words. -/
theorem textOf_packText (t : List Byte) : textOf (packText t) t.length = t := by
  unfold textOf
  induction t using packText.induct with
  | case1 => rfl
  | case2 => simp [packText, wordBytes_packWord]
  | case3 => simp [packText, wordBytes_packWord]
  | case4 => simp [packText, wordBytes_packWord]
  | case5 a b c d rest ih =>
    simp only [packText, List.flatMap_cons, wordBytes_packWord, List.length_cons, List.cons_append, List.nil_append,
      List.take_succ_cons, ih]

/-- A data word has four bytes. -/
theorem flatMap_wordBytes_length (ds : List Word) : (ds.flatMap wordBytes).length = 4 * ds.length := by
  induction ds with
  | nil => rfl
  | cons d ds ih => simp only [List.flatMap_cons, List.length_append, wordBytes, List.length_cons, List.length_nil, ih]; omega

/-- The text keeps its length when its data words are there. -/
theorem textOf_length (ds : List Word) (n : Nat) (h : n ≤ 4 * ds.length) : (textOf ds n).length = n := by
  simp only [textOf, List.length_take, flatMap_wordBytes_length]; omega

end Sys2Proof.Laws
end

