-- ==== Sys2Proof/Laws/Step.lean ====
section
/-! SUPPORT. What a decoded command is, and what one step can do, said once. -/

namespace Sys2Proof.Machine

open Sys2Proof.Laws

/-- What the decoder accepts: a command of that kind of port whose values exist (30_encoding.md R78). -/
theorem decodeFirst_ok (c : Config) (p : Port) (w : Word) (t : List Byte) (i : Instr)
    (h : decodeFirst c p w t = .ok i) :
    i.onItsPort p = true ∧ i.valuesExist c = true ∧ (i.isRaster = true → dataWords w = 0) := by
  have hlt := opOf_lt w
  unfold decodeFirst at h
  split at h
  · cases h
  split at h
  · cases h
  split at h
  · cases h
  rename_i h0 h1 h2
  have hraster (hop : 11 ≤ opOf w) : p = .raster ∧ dataWords w = 0 := by
    refine ⟨by_contra fun hp => h2 ⟨hop, hp⟩, ?_⟩
    simp only [dataWords, isTextOp, Bool.and_eq_true, decide_eq_true_eq]
    rw [if_neg (by omega)]
  have hcmd (hop : opOf w ≤ 10) : ∃ n, p = .cmd n := by
    cases p with
    | cmd n => exact ⟨n, rfl⟩
    | raster => exact absurd ⟨hop, rfl⟩ h1
  have console (j : Instr) (hj : j.isRaster = false) (hv : j.valuesExist c = true) (hop : opOf w ≤ 10)
      (e : (Except.ok j : Except DecodeError Instr) = .ok i) :
      i.onItsPort p = true ∧ i.valuesExist c = true ∧ (i.isRaster = true → dataWords w = 0) := by
    obtain ⟨n, rfl⟩ := hcmd hop
    cases e
    exact ⟨by simp [Instr.onItsPort, hj], hv, by simp [hj]⟩
  split at h <;> rename_i hop
  · split at h
    · cases h
    · exact console _ rfl rfl (by omega) h
  · split at h
    · cases h
    · split at h
      · cases h
      · exact console _ rfl (by simp only [Instr.valuesExist, decide_eq_true_eq]; omega) (by omega) h
  · split at h
    · cases h
    · exact console _ rfl rfl (by omega) h
  · split at h
    · cases h
    · exact console _ rfl rfl (by omega) h
  · split at h
    · cases h
    · exact console _ rfl rfl (by omega) h
  · split at h
    · cases h
    · exact console _ rfl rfl (by omega) h
  · split at h
    · cases h
    · exact console _ rfl rfl (by omega) h
  · exact console _ rfl rfl (by omega) h
  · split at h
    · cases h
    · exact console _ rfl rfl (by omega) h
  · split at h
    · cases h
    · exact console _ rfl rfl (by omega) h
  · split at h
    · cases h
    · obtain ⟨rfl, hd⟩ := hraster (by omega)
      cases h
      exact ⟨rfl, by simp only [Instr.valuesExist, decide_eq_true_eq]; omega, fun _ => hd⟩
  · split at h
    · cases h
    · obtain ⟨rfl, hd⟩ := hraster (by omega)
      cases h
      exact ⟨rfl, rfl, fun _ => hd⟩
  · cases h

/-- A command decoded from a port's words. -/
theorem decode_instr (c : Config) (p : Port) (ws : List Word) (i : Instr) (rest : List Word)
    (h : decode c p ws = .instr i rest) :
    ∃ w tail, ws = w :: tail ∧ decodeFirst c p w (textOf (tail.take (dataWords w)) (fieldN w)) = .ok i ∧
      dataWords w ≤ tail.length ∧ rest = tail.drop (dataWords w) := by
  cases ws with
  | nil => cases h
  | cons w tail =>
    simp only [decode] at h
    split at h
    · cases h
    · rename_i j hj
      split at h
      · cases h
      · cases h
        exact ⟨w, tail, rfl, hj, by omega, rfl⟩

/-- What a command port decodes is a console command whose values exist. -/
theorem decode_cmd (c : Config) (n : Nat) (ws : List Word) (i : Instr) (rest : List Word)
    (h : decode c (.cmd n) ws = .instr i rest) : i.isRaster = false ∧ i.valuesExist c = true := by
  obtain ⟨w, tail, -, hd, -, -⟩ := decode_instr c _ ws i rest h
  obtain ⟨hp, hv, -⟩ := decodeFirst_ok c _ w _ i hd
  exact ⟨by simpa [Instr.onItsPort] using hp, hv⟩

/-- What the raster port decodes is a raster command whose values exist, and it is one word. -/
theorem decode_raster (c : Config) (ws : List Word) (i : Instr) (rest : List Word)
    (h : decode c .raster ws = .instr i rest) :
    i.isRaster = true ∧ i.valuesExist c = true ∧ ∃ w, ws = w :: rest := by
  obtain ⟨w, tail, rfl, hd, -, rfl⟩ := decode_instr c _ ws i rest h
  obtain ⟨hp, hv, h0⟩ := decodeFirst_ok c _ w _ i hd
  have hr : i.isRaster = true := by simpa [Instr.onItsPort] using hp
  exact ⟨hr, hv, w, by rw [h0 hr, List.drop_zero]⟩

/-- What one step of a command port can do. -/
theorem stepCommand_next (n : Nat) (s t : State) (h : stepCommand n s = .next t) :
    ∃ g scr, s.instAt n = some (g, scr) ∧
      ((∃ m ms, scr.busy = m :: ms ∧ s.runMicros n g scr (m :: ms) = .next t) ∨
       (scr.busy = [] ∧ decode s.cfg (.cmd n) scr.rx = .incomplete ∧ t = s) ∨
       (scr.busy = [] ∧ ∃ i rest, decode s.cfg (.cmd n) scr.rx = .instr i rest ∧
          (s.takeCommand n scr rest).runMicros n g { scr with rx := rest } (microsOf s.cfg g i) = .next t)) := by
  simp only [stepCommand] at h
  split at h
  · cases h
  · rename_i g scr hi
    refine ⟨g, scr, hi, ?_⟩
    split at h
    · rename_i m ms hb
      exact .inl ⟨m, ms, hb, h⟩
    · rename_i hb
      split at h
      · rename_i hd
        simp only [Host.Outcome.next.injEq] at h
        exact .inr (.inl ⟨hb, hd, h.symm⟩)
      · cases h
      · rename_i i rest hd
        obtain ⟨hr, hv⟩ := decode_cmd _ _ _ _ _ hd
        refine .inr (.inr ⟨hb, i, rest, hd, ?_⟩)
        rwa [exec_console (s.takeCommand n scr rest) n g { scr with rx := rest } i rfl
          (State.instAt_takeCommand_self s n scr rest g hi) hr hv] at h

/-- What a step of a command port can change: its instance's state, and the model's record of the port served. -/
theorem stepCommand_frame (n : Nat) (s t : State) (h : stepCommand n s = .next t) :
    ∃ scr' a, t = { s.setScreen n scr' with active := a } := by
  obtain ⟨g, scr, hi, h⟩ := stepCommand_next n s t h
  have run (u : State) (scr0 : Screen) (ms : List Micro) (hu : u.runMicros n g scr0 ms = .next t) :
      ∃ scr', t = u.setScreen n scr' := by
    rcases State.runMicros_next u t n g scr0 ms hu with ⟨-, rfl⟩ | ⟨m, rest, scr', -, -, rfl⟩
    · exact ⟨_, rfl⟩
    · exact ⟨_, rfl⟩
  rcases h with ⟨m, ms, -, h⟩ | ⟨-, -, rfl⟩ | ⟨-, i, rest, -, h⟩
  · obtain ⟨scr', rfl⟩ := run s scr _ h
    exact ⟨scr', s.active, rfl⟩
  · refine ⟨scr, t.active, ?_⟩
    rw [State.instAt_eq_some] at hi
    obtain ⟨hl, he⟩ := List.getElem?_eq_some_iff.1 hi.2
    simp only [State.setScreen, ← he, List.set_getElem_self]
  · obtain ⟨scr', rfl⟩ := run _ _ _ h
    exact ⟨scr', .cmd n, by simp [State.takeCommand, State.setScreen, List.set_set]⟩

/-- What one step of the system can do: a raster request, a word that arrives, a step of a command port, or nothing. -/
theorem step_next (s t : State) (h : step s = .next t) :
    s.cfg.Wf ∧
      ((∃ w rest i, s.rasterRx = w :: rest ∧ decode s.cfg .raster s.rasterRx = .instr i rest ∧
          exec i (s.takeRaster rest) = .next t) ∨
       (s.rasterRx = [] ∧
        ((∃ w more, s.inputs = .send .raster w :: more ∧ t = { s with inputs := more, rasterRx := [w] }) ∨
         (∃ n w more g scr, s.inputs = .send (.cmd n) w :: more ∧ s.instAt n = some (g, scr) ∧
            t = { s.setScreen n { scr with rx := scr.rx ++ [w] } with inputs := more }) ∨
         (∃ n more, s.inputs = .serve n :: more ∧ stepCommand n { s with inputs := more } = .next t) ∨
         (s.inputs = [] ∧ ∃ n, s.firstReady = some n ∧ stepCommand n s = .next t) ∨
         (s.inputs = [] ∧ t = s)))) := by
  simp only [step, stepSystem] at h
  split at h
  · refine ⟨‹_›, ?_⟩
    split at h
    · rename_i w ws hw
      simp only [stepRaster] at h
      split at h
      · rename_i hd
        rw [hw] at hd
        simp only [decode] at hd
        split at hd
        · cases hd
        · rename_i j hj
          obtain ⟨hp, -, h0⟩ := decodeFirst_ok _ _ _ _ _ hj
          rw [h0 (by simpa [Instr.onItsPort] using hp), if_neg (by omega)] at hd
          cases hd
      · cases h
      · rename_i i rest hd
        obtain ⟨-, -, w', hw'⟩ := decode_raster _ _ _ _ hd
        exact .inl ⟨w', rest, i, hw', hd, h⟩
    · rename_i hw
      refine .inr ⟨hw, ?_⟩
      simp only [stepConsole] at h
      split at h
      · rename_i p w more hin
        cases p with
        | raster =>
          simp only [deliver, hw, List.nil_append, Host.Outcome.next.injEq] at h
          exact .inl ⟨w, more, hin, h.symm⟩
        | cmd n =>
          simp only [deliver] at h
          split at h
          · cases h
          · rename_i g scr hi
            simp only [Host.Outcome.next.injEq] at h
            exact .inr (.inl ⟨n, w, more, g, scr, hin, hi, h.symm⟩)
      · rename_i n more hin
        exact .inr (.inr (.inl ⟨n, more, hin, h⟩))
      · rename_i hin
        split at h
        · rename_i n hf
          exact .inr (.inr (.inr (.inl ⟨hin, n, hf, h⟩)))
        · simp only [Host.Outcome.next.injEq] at h
          exact .inr (.inr (.inr (.inr ⟨hin, h.symm⟩)))
  · cases h

/-- A step in which command port `n` is granted. -/
theorem step_serve (s : State) (n : Nat) (more : List Input) (hw : s.cfg.Wf) (hr : s.rasterRx = [])
    (hin : s.inputs = .serve n :: more) : step s = stepCommand n { s with inputs := more } := by
  simp only [step, stepSystem, if_pos hw, hr, stepConsole, hin]

/-! ## Runs -/

/-- A run whose first step answers a next state goes on from there. -/
theorem core_run_next (M : Host.Core) (k : Nat) (s s' : M.State) (h : M.step s = .next s') :
    M.run (k + 1) s = M.run k s' := by rw [Host.Core.run, h]

/-- A run whose first step is refused is refused. -/
theorem core_run_refused (M : Host.Core) (k : Nat) (s : M.State) (r : M.Refusal) (h : M.step s = .refused r) :
    M.run (k + 1) s = .refused r := by rw [Host.Core.run, h]

/-- A run whose first step faults stops there. -/
theorem core_run_fault (M : Host.Core) (k : Nat) (s : M.State) (f : M.Fault) (h : M.step s = .fault f) :
    M.run (k + 1) s = .fault f := by rw [Host.Core.run, h]

/-- A safe run of no step. -/
theorem safeRun_zero (s t : State) : SafeRun 0 s t ↔ s = t := by
  constructor
  · intro h; cases h; rfl
  · rintro rfl; rfl

/-- A safe run of one step more. -/
theorem safeRun_succ (k : Nat) (s t : State) : SafeRun (k + 1) s t ↔ ∃ s', step s = .next s' ∧ SafeRun k s' t := by
  unfold SafeRun
  constructor
  · intro h
    cases hs : step s with
    | next s' => exact ⟨s', rfl, (core_run_next Sys2Proof.core k s s' hs).symm.trans h⟩
    | fault f => cases (core_run_fault Sys2Proof.core k s f hs).symm.trans h
    | refused r => cases (core_run_refused Sys2Proof.core k s r hs).symm.trans h
  · rintro ⟨s', hs, h⟩
    exact (core_run_next Sys2Proof.core k s s' hs).trans h

/-! ## The invariant, one instance at a time -/

/-- An existing instance's parameters are admitted. -/
theorem State.instAt_wf (s : State) (n : Nat) (g : InstCfg) (scr : Screen) (hw : s.cfg.Wf)
    (hi : s.instAt n = some (g, scr)) : g ∈ s.cfg.insts ∧ s.cfg.InstWf g := by
  rw [State.instAt_eq_some] at hi
  have hg : g ∈ s.cfg.insts := List.mem_of_getElem? hi.1
  exact ⟨hg, hw.2.2.2.2 g hg⟩

/-- In a state that meets the invariant every instance is in a legal state. -/
theorem State.inv_instAt (s : State) (n : Nat) (g : InstCfg) (scr : Screen) (h : s.Inv)
    (hi : s.instAt n = some (g, scr)) : ScreenOk s.cfg g scr := by
  rw [State.instAt_eq_some] at hi
  refine h.2.2 (g, scr) (List.mem_of_getElem? (i := n) ?_)
  rw [List.getElem?_zip_eq_some]
  exact hi

/-- The invariant, told by the instances one at a time. -/
theorem State.inv_iff (s : State) :
    s.Inv ↔ s.cfg.Wf ∧ s.screens.length = s.cfg.insts.length ∧
      ∀ n g scr, s.instAt n = some (g, scr) → ScreenOk s.cfg g scr := by
  refine ⟨fun h => ⟨h.1, h.2.1, fun n g scr hi => State.inv_instAt s n g scr h hi⟩, fun h => ⟨h.1, h.2.1, ?_⟩⟩
  rintro ⟨g, scr⟩ hp
  obtain ⟨n, hn⟩ := List.getElem?_of_mem hp
  rw [List.getElem?_zip_eq_some] at hn
  exact h.2.2 n g scr ((State.instAt_eq_some ..).2 hn)

/-- Replacing one instance's state by a legal one keeps the invariant. -/
theorem State.inv_setScreen (s : State) (n : Nat) (g : InstCfg) (scr scr' : Screen) (h : s.Inv)
    (hi : s.instAt n = some (g, scr)) (hok : ScreenOk s.cfg g scr') : (s.setScreen n scr').Inv := by
  rw [State.inv_iff] at h ⊢
  refine ⟨h.1, by simpa using h.2.1, fun m g' scr'' hm => ?_⟩
  by_cases e : m = n
  · subst e
    rw [State.instAt_setScreen_self s m scr g scr' hi, Option.some_inj] at hm
    cases hm
    exact hok
  · rw [State.instAt_setScreen_other s n m scr' e] at hm
    exact h.2.2 m g' scr'' hm

end Sys2Proof.Machine
end

