-- ==== Sys2Proof/Laws/Console.lean ====
section
/-! SUPPORT. What the micro-steps of the console commands can do, said once: positions, characters, aligned texts, and
the frame of a list of micro-steps. -/

namespace Sys2Proof.Machine

/-- SetCursor writes the clamped position and nothing else (42_console.md R112). -/
theorem perform_setCursor (c : Config) (g : InstCfg) (scr : Screen) (x y : Nat) (hc : c.cols g ≤ 256)
    (hr : c.rows g ≤ 256) :
    ∃ cx cy : Byte, perform c g scr (.setCursor x y) = some { scr with curx := cx, cury := cy } ∧
      cx.toNat = min x (c.cols g - 1) ∧ cy.toNat = min y (c.rows g - 1) :=
  ⟨_, _, rfl, (setCursorClamped_toNat c g scr x y hc hr).1, (setCursorClamped_toNat c g scr x y hc hr).2⟩

/-- PutChar writes the cell at the cursor and moves the cursor to the next linear position (42_console.md R113). -/
theorem putChar_spec (c : Config) (g : InstCfg) (scr : Screen) (ch : Byte) (hc : c.cols g ≤ 256) (hr : c.rows g ≤ 256)
    (h : CursorOk c g scr) :
    ∃ cx cy : Byte,
      putChar c g scr ch = some { scr with
        chars := scr.chars.write (scr.cury.toNat * c.cols g + scr.curx.toNat) ch
        attrs := scr.attrs.write (scr.cury.toNat * c.cols g + scr.curx.toNat) scr.defattr
        curx := cx
        cury := cy } ∧
      cx.toNat < c.cols g ∧ cy.toNat < c.rows g ∧
      cy.toNat * c.cols g + cx.toNat =
        (scr.cury.toNat * c.cols g + scr.curx.toNat + 1) % (c.rows g * c.cols g) := by
  have hl := advanceCursor_linear c g { scr with
    chars := scr.chars.write (scr.cury.toNat * c.cols g + scr.curx.toNat) ch
    attrs := scr.attrs.write (scr.cury.toNat * c.cols g + scr.curx.toNat) scr.defattr } hc hr h
  refine ⟨_, _, ?_, hl.1.1, hl.1.2, hl.2⟩
  rw [putChar_eq c g scr ch h]
  exact congrArg some (advanceCursor_eq c g _)

/-- The text PRINT_RIGHT writes: its length and its characters (42_console.md R124). -/
theorem rightText_spec (w : Nat) (t : List Byte) :
    (rightText w t).length = min t.length w ∧ rightText w t = t.drop (t.length - w) ∧
      ∀ k, k < min t.length w → (rightText w t)[k]? = t[t.length - min t.length w + k]? := by
  unfold rightText
  split
  · refine ⟨by simp; omega, rfl, fun k hk => ?_⟩
    rw [List.getElem?_drop]
    congr 1
    omega
  · refine ⟨by omega, by rw [show t.length - w = 0 by omega, List.drop_zero], fun k hk => ?_⟩
    congr 1
    omega

/-- The text PRINT_CENTER writes: its length and its characters (42_console.md R126). -/
theorem centerText_spec (w : Nat) (t : List Byte) :
    (centerText w t).length = min t.length w ∧ centerText w t = (t.drop ((t.length - w) / 2)).take w ∧
      ∀ k, k < min t.length w → (centerText w t)[k]? = t[(t.length - min t.length w) / 2 + k]? := by
  unfold centerText
  split
  · refine ⟨by simp; omega, rfl, fun k hk => ?_⟩
    rw [List.getElem?_take_of_lt (by omega), List.getElem?_drop]
    congr 1
    omega
  · refine ⟨by omega, ?_, fun k hk => ?_⟩
    · rw [show (t.length - w) / 2 = 0 by omega, List.drop_zero, List.take_of_length_le (by omega)]
    · congr 1
      omega

/-- A list of micro-steps that name only what exists completes on an instance in a legal state. -/
theorem performAll_ok (c : Config) (g : InstCfg) (hw : c.InstWf g) (ms : List Micro) (scr : Screen)
    (h : RegsOk c g scr) (hm : ∀ m ∈ ms, m.Ok c g = true) :
    ∃ scr', performAll c g ms scr = some scr' ∧ RegsOk c g scr' := by
  induction ms generalizing scr with
  | nil => exact ⟨scr, rfl, h⟩
  | cons m ms ih =>
    obtain ⟨s1, hp, hok⟩ := perform_ok c g scr m hw h (hm m (by simp))
    obtain ⟨s2, h2, hok2⟩ := ih s1 hok (fun m hm' => hm m (by simp [hm']))
    exact ⟨s2, by rw [performAll, hp]; exact h2, hok2⟩

/-- What one micro-step leaves alone. -/
theorem perform_frame (c : Config) (g : InstCfg) (scr scr' : Screen) (m : Micro) (h : perform c g scr m = some scr') :
    scr'.rx = scr.rx ∧ scr'.busy = scr.busy ∧ ((∀ v, m ≠ .setFont v) → scr'.fontsel = scr.fontsel) ∧
      ((∀ v, m ≠ .setAttr v) → scr'.defattr = scr.defattr) ∧
      (m ≠ .showCursor → m ≠ .hideCursor → scr'.curvis = scr.curvis) := by
  cases m <;>
    simp only [perform, putChar, Option.map_eq_some_iff, cellWrite_eq_some, Option.some_inj, setCursorClamped] at h
  case putChar =>
    obtain ⟨s1, ⟨-, -, rfl⟩, rfl⟩ := h
    rw [advanceCursor_eq]
    simp
  case clearCell =>
    obtain ⟨-, -, rfl⟩ := h
    simp
  all_goals
    subst h
    simp

end Sys2Proof.Machine
end

