-- ==== Sys2Proof/Laws/PerInstr.lean ====
section
/-! SUPPORT. Facts stated for all commands, one lemma per constructor. `EncodeShape`: the encoding of a command whose
text fits is one command word and as many data words as that word says the command has (30_encoding.md R69 to R76). -/

namespace Sys2Proof.Laws

/-- The encoding is a command word and the number of data words that word tells. -/
def EncodeShape.Statement (i : Instr) : Prop :=
  i.TextFits → ∃ w ws, encode i = w :: ws ∧ ws.length = dataWords w

/-- A command word whose opcode is not of format T has no data words. -/
theorem dataWords_single (w : Word) (h : ¬(7 ≤ opOf w ∧ opOf w ≤ 10)) : ([] : List Word).length = dataWords w := by
  simp only [dataWords, isTextOp, Bool.and_eq_true, decide_eq_true_eq]
  rw [if_neg h]
  rfl

/-- The data words of format T are as many as its command word tells. -/
theorem dataWords_textWord (op : BitVec 4) (y x : Byte) (t : List Byte) (ht : t.length ≤ 4095) (h7 : 7 ≤ op.toNat)
    (h10 : op.toNat ≤ 10) : (packText t).length = dataWords (textWord op t.length y x) := by
  simp only [dataWords, isTextOp, textWord_op op _ y x ht, textWord_n op _ y x ht, packText_length, h7, h10, decide_true,
    Bool.and_self, if_true]

theorem EncodeShape.clear : EncodeShape.Statement .clear :=
  fun _ => ⟨_, _, rfl, dataWords_single _ (by decide)⟩

theorem EncodeShape.setFont (v : Byte) : EncodeShape.Statement (.setFont v) := by
  refine fun _ => ⟨_, _, rfl, dataWords_single _ ?_⟩
  have := v.isLt
  rw [opOf_eq]
  simp only [toNat_append_eq, BitVec.toNat_ofNat]
  omega

theorem EncodeShape.setAttr (v : Byte) : EncodeShape.Statement (.setAttr v) := by
  refine fun _ => ⟨_, _, rfl, dataWords_single _ ?_⟩
  have := v.isLt
  rw [opOf_eq]
  simp only [toNat_append_eq, BitVec.toNat_ofNat]
  omega

theorem EncodeShape.setCursor (x y : Byte) : EncodeShape.Statement (.setCursor x y) := by
  refine fun _ => ⟨_, _, rfl, dataWords_single _ ?_⟩
  have := x.isLt
  have := y.isLt
  rw [opOf_eq]
  simp only [toNat_append_eq, BitVec.toNat_ofNat]
  omega

theorem EncodeShape.showCursor : EncodeShape.Statement .showCursor :=
  fun _ => ⟨_, _, rfl, dataWords_single _ (by decide)⟩

theorem EncodeShape.hideCursor : EncodeShape.Statement .hideCursor :=
  fun _ => ⟨_, _, rfl, dataWords_single _ (by decide)⟩

theorem EncodeShape.print (t : List Byte) : EncodeShape.Statement (.print t) :=
  fun h => ⟨_, _, rfl, dataWords_textWord _ _ _ t h (by decide) (by decide)⟩

theorem EncodeShape.printAt (x y : Byte) (t : List Byte) : EncodeShape.Statement (.printAt x y t) :=
  fun h => ⟨_, _, rfl, dataWords_textWord _ _ _ t h (by decide) (by decide)⟩

theorem EncodeShape.printRight (y : Byte) (t : List Byte) : EncodeShape.Statement (.printRight y t) :=
  fun h => ⟨_, _, rfl, dataWords_textWord _ _ _ t h (by decide) (by decide)⟩

theorem EncodeShape.printCenter (y : Byte) (t : List Byte) : EncodeShape.Statement (.printCenter y t) :=
  fun h => ⟨_, _, rfl, dataWords_textWord _ _ _ t h (by decide) (by decide)⟩

theorem EncodeShape.rasterize (inst : BitVec 4) (line : Line) (ratio : Byte) :
    EncodeShape.Statement (.rasterize inst line ratio) := by
  refine fun _ => ⟨_, _, rfl, dataWords_single _ ?_⟩
  have := inst.isLt
  have := line.isLt
  have := ratio.isLt
  rw [opOf_eq]
  simp only [toNat_append_eq, BitVec.toNat_ofNat]
  omega

theorem EncodeShape.frameTick : EncodeShape.Statement .frameTick :=
  fun _ => ⟨_, _, rfl, dataWords_single _ (by decide)⟩

end Sys2Proof.Laws
end

