-- ==== Sys2Proof/Laws/Raster.lean ====
section
/-! SUPPORT. What RASTERIZE can answer, said once: the mapper's active lines, the pixels of a line, and the command on an
owned and on a foreign line. -/

namespace Sys2Proof.Machine

/-- REPEAT is max(RATIO, 1) (41_rasterize.md R98). -/
theorem repeatOf_toNat (ratio : Byte) : (repeatOf ratio).toNat = max ratio.toNat 1 := by
  unfold repeatOf
  split
  · subst ratio; rfl
  · have : ratio.toNat ≠ 0 := fun h => ‹¬_› (BitVec.eq_of_toNat_eq h)
    omega

/-- A line between the vertical borders is active (40_region_mapper.md R89). -/
theorem classify_active (c : Config) (g : InstCfg) (l : Nat) (h1 : g.vb ≤ l) (h2 : l < g.height - g.vb) :
    classify c g l = .active ((l - g.vb) / c.gh) ((l - g.vb) % c.gh) := by
  unfold classify
  rw [if_neg (by omega), if_neg (by omega)]

/-- The pixels of an active line. -/
theorem linePixels_active (c : Config) (g : InstCfg) (scr : Screen) (fc : BitVec 32) (row sub : Nat) (f : Font)
    (hf : c.fonts[scr.fontsel.toNat]? = some f) :
    linePixels c g scr fc (.active row sub) = some ((List.range g.hres).map (activePixel c g scr fc f row sub)) := by
  simp only [linePixels, hf]

/-- Every line has HRES pixels where the selected font exists (41_rasterize.md R99). -/
theorem linePixels_some (c : Config) (g : InstCfg) (scr : Screen) (fc : BitVec 32) (b : Band) (f : Font)
    (hf : c.fonts[scr.fontsel.toNat]? = some f) :
    ∃ px, linePixels c g scr fc b = some px ∧ px.length = g.hres := by
  cases b with
  | topBorder => exact ⟨_, rfl, List.length_replicate⟩
  | bottomBorder => exact ⟨_, rfl, List.length_replicate⟩
  | active row sub => exact ⟨_, linePixels_active c g scr fc row sub f hf, by simp⟩

/-- The glyph entry of any code exists (41_rasterize.md R104). -/
theorem glyphEntry_lt (f : Font) (ch : Byte) (h : f.WF8) : glyphEntry f ch < f.count := by
  unfold glyphEntry
  split <;> omega

/-- RASTERIZE of an owned line answers with that line's pixels (41_rasterize.md R96). -/
theorem exec_rasterize_owned (s : State) (inst : BitVec 4) (line : Line) (ratio : Byte) (g : InstCfg) (scr : Screen)
    (px : List Byte) (ha : s.active = .raster) (hi : s.instAt inst.toNat = some (g, scr)) (h1 : g.start ≤ line.toNat)
    (h2 : line.toNat < g.start + g.height)
    (hp : linePixels s.cfg g scr s.fc (classify s.cfg g (line.toNat - g.start)) = some px) :
    exec (.rasterize inst line ratio) s = .next { s with
      responses := s.responses ++
        [{ info := { owned := true, rep := repeatOf ratio, pixelCount := BitVec.ofNat 16 g.hres, startOffset := 0 },
           pixels := px }] } := by
  have ho : owned g line.toNat = true := by simp [owned, h1, h2]
  simp only [exec, execRasterize, ha, hi, rasterResponse, ho, if_true, hp]

/-- In a state that meets the invariant the selected font of every instance exists. -/
theorem State.inv_font (s : State) (n : Nat) (g : InstCfg) (scr : Screen) (h : s.Inv)
    (hi : s.instAt n = some (g, scr)) : ∃ f, s.cfg.fonts[scr.fontsel.toNat]? = some f :=
  ⟨_, List.getElem?_eq_getElem (State.inv_instAt s n g scr h hi).2.1⟩

end Sys2Proof.Machine
end

