-- ==== Sys2Proof/Machine/Assembler.lean ====
section
/-! DEFINITION. The assembler syntax (30_encoding.md R84): one line of source text to the command it writes, and to its
words. What the rule leaves open (spaces, numbers too wide for their field) is log 19. -/

namespace Sys2Proof.Machine

/-- The tokens of one line (30_encoding.md R84). -/
inductive Token where
  | name (cs : List Char)
  | num (n : Nat)
  | text (t : List Byte)
  | comma
  deriving DecidableEq, Repr

/-- Where the reader of a line stands: between tokens, inside a name or number, inside a string literal, or inside an
escape of one. -/
inductive LexState where
  | between
  | word (cs : List Char)
  | text (t : List Byte)
  | escape (t : List Byte)
  | hexHigh (t : List Byte)
  | hexLow (t : List Byte) (high : Nat)
  deriving DecidableEq, Repr

/-- The value of a decimal digit. -/
def decDigit (ch : Char) : Option Nat := if 48 ≤ ch.toNat ∧ ch.toNat ≤ 57 then some (ch.toNat - 48) else none

/-- The value of a hexadecimal digit. -/
def hexDigit (ch : Char) : Option Nat :=
  if 65 ≤ ch.toNat ∧ ch.toNat ≤ 70 then some (ch.toNat - 55)
  else if 97 ≤ ch.toNat ∧ ch.toNat ≤ 102 then some (ch.toNat - 87)
  else decDigit ch

/-- A number in a base, most significant digit first. -/
def digitsIn (base : Nat) (digit : Char → Option Nat) : List Char → Nat → Option Nat
  | [], acc => some acc
  | ch :: rest, acc =>
    match digit ch with
    | none => none
    | some d => digitsIn base digit rest (acc * base + d)

/-- A name, or a decimal or `0x` hexadecimal number. -/
def wordToken (cs : List Char) : Option Token :=
  match cs with
  | [] => none
  | '0' :: 'x' :: d :: rest => (digitsIn 16 hexDigit (d :: rest) 0).map .num
  | ch :: rest =>
    match decDigit ch with
    | some d => (digitsIn 10 decDigit rest d).map .num
    | none => some (.name (ch :: rest))

/-- The characters of names and numbers. -/
def isWordChar (ch : Char) : Bool := (hexDigit ch).isSome || ch.isAlpha || ch == '_'

/-- Printable ASCII (30_encoding.md R84). -/
def isPrintable (ch : Char) : Bool := decide (32 ≤ ch.toNat) && decide (ch.toNat ≤ 126)

/-- The tokens of the characters from a reader's state on; none where no token can stand. -/
def lex : LexState → List Char → Option (List Token)
  | .between, [] => some []
  | .word cs, [] => (wordToken cs).map ([·])
  | .text _, [] => none
  | .escape _, [] => none
  | .hexHigh _, [] => none
  | .hexLow _ _, [] => none
  | .between, ch :: rest =>
    if ch = ' ' then lex .between rest
    else if ch = ',' then (lex .between rest).map (.comma :: ·)
    else if ch = '"' then lex (.text []) rest
    else if isWordChar ch then lex (.word [ch]) rest
    else none
  | .word cs, ch :: rest =>
    if isWordChar ch then lex (.word (cs ++ [ch])) rest
    else
      match wordToken cs with
      | none => none
      | some tk =>
        if ch = ' ' then (lex .between rest).map (tk :: ·)
        else if ch = ',' then (lex .between rest).map (tk :: .comma :: ·)
        else none
  | .text t, ch :: rest =>
    if ch = '"' then (lex .between rest).map (.text t :: ·)
    else if ch = '\\' then lex (.escape t) rest
    else if isPrintable ch then lex (.text (t ++ [BitVec.ofNat 8 ch.toNat])) rest
    else none
  | .escape t, ch :: rest =>
    if ch = '\\' then lex (.text (t ++ [0x5C])) rest
    else if ch = '"' then lex (.text (t ++ [0x22])) rest
    else if ch = 'x' then lex (.hexHigh t) rest
    else none
  | .hexHigh t, ch :: rest =>
    match hexDigit ch with
    | none => none
    | some d => lex (.hexLow t d) rest
  | .hexLow t high, ch :: rest =>
    match hexDigit ch with
    | none => none
    | some d => lex (.text (t ++ [BitVec.ofNat 8 (high * 16 + d)])) rest

/-- Operands separated by commas (30_encoding.md R84). -/
def separated : List Token → Option (List Token)
  | [] => some []
  | [tk] => if tk = .comma then none else some [tk]
  | tk :: .comma :: next :: rest => if tk = .comma then none else (separated (next :: rest)).map (tk :: ·)
  | _ :: _ :: _ => none

/-- An 8-bit operand. -/
def byteOperand (n : Nat) : Option Byte := if n < 256 then some (BitVec.ofNat 8 n) else none

/-- A text operand: at most 4095 characters have an encoding (30_encoding.md R72). -/
def textOperand (t : List Byte) : Option (List Byte) := if t.length ≤ 4095 then some t else none

/-- The command of a mnemonic and its operands (30_encoding.md R67, R84). -/
def commandOf (m : List Char) : List Token → Option Instr
  | [] =>
    if m = "CLEAR".toList then some .clear
    else if m = "SHOW_CURSOR".toList then some .showCursor
    else if m = "HIDE_CURSOR".toList then some .hideCursor
    else if m = "FRAME_TICK".toList then some .frameTick
    else none
  | [.num v] =>
    if m = "SET_FONT".toList then (byteOperand v).map .setFont
    else if m = "SET_ATTR".toList then (byteOperand v).map .setAttr
    else none
  | [.num x, .num y] =>
    if m = "SET_CURSOR".toList then
      (byteOperand x).bind fun x => (byteOperand y).map fun y => .setCursor x y
    else none
  | [.text t] => if m = "PRINT".toList then (textOperand t).map .print else none
  | [.num x, .num y, .text t] =>
    if m = "PRINT_AT".toList then
      (byteOperand x).bind fun x => (byteOperand y).bind fun y => (textOperand t).map fun t => .printAt x y t
    else none
  | [.num y, .text t] =>
    if m = "PRINT_RIGHT".toList then (byteOperand y).bind fun y => (textOperand t).map fun t => .printRight y t
    else if m = "PRINT_CENTER".toList then (byteOperand y).bind fun y => (textOperand t).map fun t => .printCenter y t
    else none
  | [.num i, .num line, .num ratio] =>
    if m = "RASTERIZE".toList ∧ i < 16 ∧ line < 65536 then
      (byteOperand ratio).map fun ratio => .rasterize (BitVec.ofNat 4 i) (BitVec.ofNat 16 line) ratio
    else none
  | _ => none

/-- The command one line of source text writes (30_encoding.md R84). -/
def assemble (line : String) : Option Instr :=
  match lex .between line.toList with
  | some (.name m :: operands) => (separated operands).bind (commandOf m)
  | _ => none

/-- The words of one line: the assembler computes N and packs the data words with zero padding (30_encoding.md R84). -/
def assembleWords (line : String) : Option (List Word) := (assemble line).map encode

end Sys2Proof.Machine
end

