-- ==== Sys2Proof/Tests/Slice0.lean ====
section
/-! SUPPORT. Tests. Every expected value is written out from the spec: the words from 30_encoding.md R67 to R74 and
95_test_vectors.md V1, the results from the vectors V2 to V6 (configurations EX1 to EX4). The theorems named `witness_`
show a state and operands that meet the hypotheses of a statement of `Certificates/Slice0/Obligations.lean`, each clause
at the boundary of its range. -/

namespace Sys2Proof.Tests

open Sys2Proof Sys2Proof.Machine

/-! ## Configurations and small states of 95_test_vectors.md -/

/-- EX1 is the configuration reset constructs. -/
abbrev ex1 : Config := Config.boot

/-- Instance 0 of EX1. -/
abbrev inst0 : InstCfg :=
  { start := 10, height := 18, vb := 1, hres := 20, hb := 2, borderPixel := 0x0C, initFont := 0, initAttr := 0x1E }

/-- Instance 1 of EX1. -/
abbrev inst1 : InstCfg :=
  { start := 28, height := 8, vb := 0, hres := 16, hb := 0, borderPixel := 0x00, initFont := 1, initAttr := 0x07 }

/-- EX2: 10 by 3 cells, one blank font. -/
abbrev ex2Inst : InstCfg :=
  { start := 0, height := 24, vb := 0, hres := 80, hb := 0, initFont := 0, initAttr := 0x07 }

abbrev ex2 : Config :=
  { fonts := [{ first := 0x20, count := 3, data := List.replicate 24 0x00 }], blinkCycle := 4, insts := [ex2Inst] }

/-- EX2 after a completed CLEAR. -/
abbrev ex2Clear : Screen :=
  Screen.powerOn ex2Inst (Memory.ofDraw 30 fun _ => 0x20) (Memory.ofDraw 30 fun _ => 0x07)

/-- EX4: glyphs six pixels wide, cells ('!', 0x70) in both columns. -/
abbrev ex4Inst : InstCfg :=
  { start := 0, height := 8, vb := 0, hres := 12, hb := 0, initFont := 0, initAttr := 0x70 }

abbrev ex4 : Config :=
  { gw := 6, fonts := [{ first := 0x20, count := 2, data := List.replicate 8 0x00 ++ [0x81, 0xFC, 0x03, 0xFF, 0, 0, 0, 0] }],
    insts := [ex4Inst] }

/-- Instance 0 and 1 after power-on. -/
abbrev on0 : Screen := Screen.powerOn inst0 [] []
abbrev on1 : Screen := Screen.powerOn inst1 [] []

/-- "State A" of V3 in instance 0. -/
abbrev screenA : Screen :=
  { on0 with
    chars := [(0, 0x21), (1, 0x22), (2, 0x20), (3, 0x20)]
    attrs := [(0, 0x1E), (1, 0x1E), (2, 0x1E), (3, 0x1E)]
    cury := 1 }

abbrev stateA : State := State.reset.setScreen 0 screenA

/-- Reset with an instruction of command port 0 about to run. -/
abbrev atCmd : State := { State.reset with active := .cmd 0 }

/-- A configuration is admitted. -/
def admitted (c : Config) : Bool := decide c.Wf

/-- The k low nibbles of a number, highest first: one pixel each. -/
def pixelDigits : Nat → Nat → List Byte
  | 0, _ => []
  | k + 1, n => pixelDigits k (n / 16) ++ [BitVec.ofNat 8 (n % 16)]

/-- The pixels and the first information word of the last response, where a step answers a next state. -/
def lastResponse (o : Host.Outcome State Fault Refusal) : Option (Word × List Byte) :=
  match o with
  | .next t => t.responses.getLast?.map fun r => (r.info.word0, r.pixels)
  | .fault _ => none
  | .refused _ => none

/-- Instance 0 after a step that answers a next state. -/
def screen0 (o : Host.Outcome State Fault Refusal) : Option Screen :=
  match o with
  | .next t => t.screens[0]?
  | .fault _ => none
  | .refused _ => none

/-- Cursor column and row and the listed cells of a screen. -/
def cursorAndCells (o : Option Screen) : Option (Nat × Nat × Memory) :=
  o.map fun scr => (scr.curx.toNat, scr.cury.toNat, scr.chars)

/-- The characters a screen of 30 cells holds. -/
def cells30 (o : Option Screen) : Option (List Byte) := o.map fun scr => (List.range 30).map scr.chars.read

/-- The cursor of a screen. -/
def cursorOf (o : Option Screen) : Option (Nat × Nat) := o.map fun scr => (scr.curx.toNat, scr.cury.toNat)

/-- The next state of a step that answers one. -/
def nextState (o : Host.Outcome State Fault Refusal) : Option State :=
  match o with
  | .next t => some t
  | .fault _ => none
  | .refused _ => none

/-- A step answers a next state. -/
def answersNext (o : Host.Outcome State Fault Refusal) : Bool :=
  match o with
  | .next _ => true
  | .fault _ => false
  | .refused _ => false

/-! ## Well-formedness: an ill-formed term for each check, refused -/

theorem test_wf_text_of_4096_does_not_fit : ¬(Instr.print (List.replicate 4096 0x41)).Wf ex1 (.cmd 0) := by
  intro h
  have := h.1
  rw [Instr.TextFits, Instr.text, List.length_replicate] at this
  omega

theorem test_wf_missing_font : ¬(Instr.setFont 2).Wf ex1 (.cmd 0) := by decide

theorem test_wf_missing_instance : ¬(Instr.rasterize 2 0 0).Wf ex1 .raster := by decide

theorem test_wf_console_command_on_the_raster_port : ¬Instr.clear.Wf ex1 .raster := by decide

theorem test_wf_raster_command_on_a_command_port : ¬Instr.frameTick.Wf ex1 (.cmd 0) := by decide

theorem test_config_ex1_to_ex4_admitted : admitted ex1 = true ∧ admitted ex2 = true ∧ admitted ex4 = true := by decide

/-- WF1: a width that is no whole number of glyphs, and one that is all border. -/
theorem test_config_wf1 : admitted { ex1 with insts := [{ inst0 with hres := 21 }] } = false ∧
    admitted { ex1 with insts := [{ inst0 with hb := 10 }] } = false := by decide

/-- WF2: a height that is no whole number of glyphs, and one that is all border. -/
theorem test_config_wf2 : admitted { ex1 with insts := [{ inst0 with height := 19 }] } = false ∧
    admitted { ex1 with insts := [{ inst0 with vb := 9 }] } = false := by decide

/-- WF3: 257 columns. -/
theorem test_config_wf3 : admitted { ex1 with insts := [{ inst0 with hres := 2060 }] } = false := by decide

/-- WF4: a band past line 65535; the last band that fits is admitted. -/
theorem test_config_wf4 : admitted { ex1 with insts := [{ inst0 with start := 65519 }] } = false ∧
    admitted { ex1 with insts := [{ inst0 with start := 65518 }] } = true := by decide

/-- WF5: bands that share one line. -/
theorem test_config_wf5 : admitted { ex1 with insts := [inst0, { inst1 with start := 27 }] } = false := by decide

/-- WF6: an initial font that does not exist. -/
theorem test_config_wf6 : admitted { ex1 with insts := [{ inst0 with initFont := 2 }] } = false := by decide

/-- WF7: a blink cycle of one frame, glyphs nine pixels wide, glyphs without a row. -/
theorem test_config_wf7 : admitted { ex1 with blinkCycle := 1 } = false ∧ admitted { ex1 with gw := 9 } = false ∧
    admitted { ex1 with gh := 0 } = false := by decide

/-- WF8: a font without a glyph, and one past code 255. -/
theorem test_config_wf8 : admitted { ex1 with fonts := [{ first := 0x20, count := 0, data := [] }, Config.ex1Font1] } = false ∧
    admitted { ex1 with fonts := [{ first := 254, count := 3, data := List.replicate 24 0 }, Config.ex1Font1] } = false := by
  decide

/-- The legal ranges of R13: no instance, no font, a palette of 15, glyph data too short, an attribute table of 3 entries. -/
theorem test_config_ranges : admitted { ex1 with insts := [] } = false ∧ admitted { ex1 with fonts := [] } = false ∧
    admitted { ex1 with palette := List.replicate 15 0 } = false ∧
    admitted { ex1 with fonts := [{ first := 0x20, count := 3, data := List.replicate 23 0 }, Config.ex1Font1] } = false ∧
    admitted { ex1 with attrFg := some [0x0F, 0x0E, 0x0D] } = false := by decide

/-! ## Decoding: words written out from the encodings, every constructor -/

theorem test_decode_clear : decode ex1 (.cmd 0) [0x10000000] = .instr .clear [] := by decide
theorem test_decode_set_font : decode ex1 (.cmd 0) [0x20000001] = .instr (.setFont 1) [] := by decide
theorem test_decode_set_attr : decode ex1 (.cmd 0) [0x3000001E] = .instr (.setAttr 0x1E) [] := by decide
theorem test_decode_set_cursor : decode ex1 (.cmd 0) [0x4000030A] = .instr (.setCursor 10 3) [] := by decide
theorem test_decode_show_cursor : decode ex1 (.cmd 0) [0x50000000] = .instr .showCursor [] := by decide
theorem test_decode_hide_cursor : decode ex1 (.cmd 0) [0x60000000] = .instr .hideCursor [] := by decide
theorem test_decode_print : decode ex1 (.cmd 0) [0x70030000, 0x00222121] = .instr (.print [0x21, 0x21, 0x22]) [] := by
  decide
theorem test_decode_print_at : decode ex1 (.cmd 0) [0x8002030A, 0x00004241, 0x10000000] =
    .instr (.printAt 10 3 [0x41, 0x42]) [0x10000000] := by decide
theorem test_decode_print_right : decode ex1 (.cmd 0) [0x90050100, 0x4C4C4548, 0x0000004F] =
    .instr (.printRight 1 [0x48, 0x45, 0x4C, 0x4C, 0x4F]) [] := by decide
theorem test_decode_print_center :
    decode ex1 (.cmd 0) [0xA00D0000, 0x44434241, 0x48474645, 0x4C4B4A49, 0x0000004D] =
      .instr (.printCenter 0 [0x41, 0x42, 0x43, 0x44, 0x45, 0x46, 0x47, 0x48, 0x49, 0x4A, 0x4B, 0x4C, 0x4D]) [] := by
  decide
theorem test_decode_rasterize : decode ex1 .raster [0xB101001C] = .instr (.rasterize 1 28 1) [] := by decide
theorem test_decode_frame_tick : decode ex1 .raster [0xC0000000] = .instr .frameTick [] := by decide

/-- Padding bytes after the last character are ignored (30_encoding.md R74). -/
theorem test_decode_ignores_padding : decode ex1 (.cmd 0) [0x90050100, 0x4C4C4548, 0xFFFFFF4F] =
    .instr (.printRight 1 [0x48, 0x45, 0x4C, 0x4C, 0x4F]) [] := by decide

/-- A format-T command without its last data word is not there yet (30_encoding.md R76). -/
theorem test_decode_waits_for_the_data_words :
    decode ex1 (.cmd 0) [0x90050100, 0x4C4C4548] = .incomplete ∧
    decode ex1 (.cmd 0) [0x8FFFFFFF] = .incomplete ∧ decode ex1 (.cmd 0) [] = .incomplete := by decide

/-- The refusals of V1. -/
theorem test_decode_refusals_of_v1 :
    decode ex1 (.cmd 0) [0x00000000] = .refuse .reservedOpcode [] ∧
    decode ex1 (.cmd 0) [0xD0000000] = .refuse .reservedOpcode [] ∧
    decode ex1 .raster [0xF0000000] = .refuse .reservedOpcode [] ∧
    decode ex1 (.cmd 0) [0xB001000B] = .refuse .wrongPort [] ∧
    decode ex1 (.cmd 0) [0xC0000000] = .refuse .wrongPort [] ∧
    decode ex1 .raster [0x10000000] = .refuse .wrongPort [] ∧
    decode ex1 .raster [0x20000005] = .refuse .wrongPort [] ∧
    decode ex1 (.cmd 0) [0x10000001] = .refuse .nonzeroReservedField [] ∧
    decode ex1 (.cmd 0) [0x30000100] = .refuse .nonzeroReservedField [] ∧
    decode ex1 (.cmd 0) [0x40010000] = .refuse .nonzeroReservedField [] ∧
    decode ex1 (.cmd 0) [0x70020001, 0x00004241] = .refuse .nonzeroReservedField [] ∧
    decode ex1 (.cmd 0) [0x900201FF, 0x00004948] = .refuse .nonzeroReservedField [] ∧
    decode ex1 .raster [0xC0000001] = .refuse .nonzeroReservedField [] ∧
    decode ex1 (.cmd 0) [0x20000002] = .refuse .noSuchFont [] ∧
    decode ex1 (.cmd 0) [0x20000102] = .refuse .nonzeroReservedField [] ∧
    decode ex1 .raster [0xB200000B] = .refuse .noSuchInstance [] := by decide

/-- The assembly of V1, the other direction. -/
theorem test_encode_words_of_v1 :
    encode .clear = [0x10000000] ∧ encode (.setFont 1) = [0x20000001] ∧ encode (.setAttr 0x1E) = [0x3000001E] ∧
    encode (.setCursor 10 3) = [0x4000030A] ∧ encode .showCursor = [0x50000000] ∧ encode .hideCursor = [0x60000000] ∧
    encode (.print []) = [0x70000000] ∧ encode (.print [0x41, 0x42]) = [0x70020000, 0x00004241] ∧
    encode (.printAt 1 0 [0x48, 0x45, 0x4C, 0x4C, 0x4F]) = [0x80050001, 0x4C4C4548, 0x0000004F] ∧
    encode (.printRight 1 [0x48, 0x45, 0x4C, 0x4C, 0x4F]) = [0x90050100, 0x4C4C4548, 0x0000004F] ∧
    encode (.printCenter 0 [0x48, 0x45, 0x4C, 0x4C, 0x4F]) = [0xA0050000, 0x4C4C4548, 0x0000004F] ∧
    encode (.rasterize 0 19 1) = [0xB0010013] ∧ encode .frameTick = [0xC0000000] := by decide

/-- The assembly table of V1: source lines and their words. -/
theorem test_assembler_words_of_v1 :
    assembleWords "CLEAR" = some [0x10000000] ∧ assembleWords "SET_FONT 1" = some [0x20000001] ∧
    assembleWords "SET_ATTR 0x1E" = some [0x3000001E] ∧ assembleWords "SET_CURSOR 10, 3" = some [0x4000030A] ∧
    assembleWords "SHOW_CURSOR" = some [0x50000000] ∧ assembleWords "HIDE_CURSOR" = some [0x60000000] ∧
    assembleWords "PRINT \"\"" = some [0x70000000] ∧ assembleWords "PRINT \"!\\\"\"" = some [0x70020000, 0x00002221] ∧
    assembleWords "PRINT_AT 1, 0, \"HELLO\"" = some [0x80050001, 0x4C4C4548, 0x0000004F] ∧
    assembleWords "PRINT_RIGHT 1, \"HELLO\"" = some [0x90050100, 0x4C4C4548, 0x0000004F] ∧
    assembleWords "PRINT_CENTER 0, \"HELLO\"" = some [0xA0050000, 0x4C4C4548, 0x0000004F] ∧
    assembleWords "RASTERIZE 0, 19, 1" = some [0xB0010013] ∧ assembleWords "FRAME_TICK" = some [0xC0000000] := by decide

/-- The escapes of R84, and lines that write no command: an unknown name, a missing comma, a number too wide. -/
theorem test_assembler_escapes_and_refusals :
    assemble "PRINT \"\\x41\\xFF\\\\\"" = some (.print [0x41, 0xFF, 0x5C]) ∧ assemble "SCROLL" = none ∧
    assemble "SET_CURSOR 1 1" = none ∧ assemble "SET_FONT 256" = none ∧ assemble "PRINT \"A" = none ∧
    assemble "SET_CURSOR 1," = none := by decide

/-- The table's numbering: the data words count on from bit 32, and bits the row does not give are zero. -/
theorem test_decodeTableWord :
    decodeTableWord 64 0x0000424170020000 = some (.print [0x41, 0x42]) ∧
    decodeTableWord 32 0xA0020100 = some (.printCenter 1 [0, 0]) ∧
    decodeTableWord 32 0xB101001C = some (.rasterize 1 28 1) ∧ decodeTableWord 32 0xD0000000 = none := by decide

/-! ## Steps -/

/-- The step after `withFetchWord` runs that instruction, from reset: a console command and a raster request. -/
theorem test_withFetchWord_runs_the_instruction :
    (screen0 (step (State.reset.withFetchWord 32 0x4000030A))).map (fun scr => (scr.curx, scr.cury, scr.busy)) =
      some (1, 1, []) ∧
    lastResponse (step (State.reset.withFetchWord 32 0xB001000A)) =
      some (0x80010014, pixelDigits 20 0xCCCCCCCCCCCCCCCCCCCC) ∧
    nextState (step (State.reset.withFetchWord 32 0xC0000000)) = some { State.reset with fc := 1 } := by decide

/-- Reset with nothing placed idles (log 9). -/
theorem test_reset_idles : nextState (step State.reset) = some State.reset := by decide

/-- CLEAR writes cell 0 in its first micro-step and leaves four micro-steps of five (V6). -/
theorem test_clear_first_micro_step :
    (screen0 (exec .clear { stateA with active := .cmd 0 })).map
        (fun scr => (scr.chars.read 0, scr.chars.read 1, scr.cury, scr.busy)) =
      some (0x20, 0x22, 1, [.clearCell 0 1, .clearCell 1 0, .clearCell 1 1, .home]) := by decide

/-- The whole of CLEAR on EX2: 30 cells (0x20, DEFATTR), the cursor at the origin (V4). -/
theorem test_clear_whole :
    (performAll ex2 ex2Inst (microsOf ex2 ex2Inst .clear) (Screen.powerOn ex2Inst [] [])).map
        (fun scr => (scr.chars, scr.attrs, scr.curx, scr.cury)) =
      some (ex2Clear.chars, ex2Clear.attrs, 0, 0) := by decide

theorem test_set_font : screen0 (exec (.setFont 1) atCmd) = some { on0 with fontsel := 1 } := by decide

/-- State A, then SET_FONT 1: every code is out of the font's range (V3). -/
theorem test_set_font_shows_at_once :
    lastResponse (exec (.rasterize 0 19 1) (State.reset.setScreen 0 { screenA with fontsel := 1 })) =
      some (0x80010014, pixelDigits 20 0xCC11EEEE1111EEEE11CC) := by decide

/-- SET_ATTR 0x5A changes no cell (V4). -/
theorem test_set_attr :
    screen0 (exec (.setAttr 0x5A) { stateA with active := .cmd 0 }) = some { screenA with defattr := 0x5A } := by decide

/-- SET_CURSOR 10, 3 and SET_CURSOR 3, 200 on EX2 (V4): each coordinate is clamped on its own. -/
theorem test_set_cursor_clamps :
    cursorOf (perform ex2 ex2Inst ex2Clear (.setCursor 10 3)) = some (9, 2) ∧
    cursorOf (perform ex2 ex2Inst ex2Clear (.setCursor 3 200)) = some (3, 2) ∧
    cursorOf (perform ex2 ex2Inst ex2Clear (.setCursor 4 1)) = some (4, 1) := by decide

theorem test_show_cursor : screen0 (exec .showCursor atCmd) = some { on0 with curvis := true } := by decide

theorem test_hide_cursor :
    screen0 (exec .hideCursor ({ atCmd with screens := [{ on0 with curvis := true }, on1] })) = some on0 := by decide

/-- PRINT "!" in the last cell of EX1 instance 0 wraps to (0, 0) (P3). -/
theorem test_print_wraps_after_the_last_cell :
    screen0 (exec (.print [0x21, 0x22]) { atCmd with screens := [{ on0 with curx := 1, cury := 1 }, on1] }) =
      some { on0 with chars := [(3, 0x21)], attrs := [(3, 0x1E)], busy := [.putChar 0x22] } := by decide

/-- Control codes are characters (V4: PRINT of the codes 0x0A and 0x00). -/
theorem test_print_has_no_control_codes :
    (performAll ex2 ex2Inst (microsOf ex2 ex2Inst (.print [0x0A, 0x00])) ex2Clear).map
        (fun scr => (scr.chars.read 0, scr.chars.read 1, scr.curx, scr.cury)) = some (0x0A, 0x00, 2, 0) := by decide

/-- PRINT_AT 255, 255, "XY" on EX2 (V4). -/
theorem test_print_at_clamps_and_wraps :
    (performAll ex2 ex2Inst (microsOf ex2 ex2Inst (.printAt 255 255 [0x58, 0x59])) ex2Clear).map
        (fun scr => (scr.chars.read 29, scr.chars.read 0, scr.curx, scr.cury)) = some (0x58, 0x59, 1, 0) := by decide

/-- PRINT_AT moves the cursor first and keeps its characters for later steps. -/
theorem test_print_at_first_micro_step :
    screen0 (exec (.printAt 1 1 [0x21]) atCmd) = some { on0 with curx := 1, cury := 1, busy := [.putChar 0x21] } := by
  decide

/-- PRINT_RIGHT on EX2 (V4, S5): "HELLO" in row 1, and "ABCDEFGHIJKL" truncated from the left in row 0. -/
theorem test_print_right :
    cells30 (performAll ex2 ex2Inst (microsOf ex2 ex2Inst (.printRight 1 [0x48, 0x45, 0x4C, 0x4C, 0x4F])) ex2Clear) =
      some (List.replicate 15 0x20 ++ [0x48, 0x45, 0x4C, 0x4C, 0x4F] ++ List.replicate 10 0x20) ∧
    cells30 (performAll ex2 ex2Inst (microsOf ex2 ex2Inst (.printRight 0
        [0x41, 0x42, 0x43, 0x44, 0x45, 0x46, 0x47, 0x48, 0x49, 0x4A, 0x4B, 0x4C])) ex2Clear) =
      some ([0x43, 0x44, 0x45, 0x46, 0x47, 0x48, 0x49, 0x4A, 0x4B, 0x4C] ++ List.replicate 20 0x20) := by decide

/-- Cursor after PRINT_RIGHT 1, "HELLO", after PRINT_RIGHT 5, "HI" and after PRINT_RIGHT 1, "" (V4). -/
theorem test_print_right_cursor :
    cursorOf (performAll ex2 ex2Inst (microsOf ex2 ex2Inst (.printRight 1 [0x48, 0x45, 0x4C, 0x4C, 0x4F])) ex2Clear) =
      some (0, 2) ∧
    cursorOf (performAll ex2 ex2Inst (microsOf ex2 ex2Inst (.printRight 5 [0x48, 0x49])) ex2Clear) = some (0, 0) ∧
    cursorOf (performAll ex2 ex2Inst (microsOf ex2 ex2Inst (.printRight 1 [])) ex2Clear) = some (9, 1) := by decide

/-- PRINT_CENTER on EX2 (V4): "HELLO" at column 2, and "ABCDEFGHIJKLM" with one character dropped left, two right. -/
theorem test_print_center :
    cells30 (performAll ex2 ex2Inst (microsOf ex2 ex2Inst (.printCenter 0 [0x48, 0x45, 0x4C, 0x4C, 0x4F])) ex2Clear) =
      some ([0x20, 0x20, 0x48, 0x45, 0x4C, 0x4C, 0x4F] ++ List.replicate 23 0x20) ∧
    cells30 (performAll ex2 ex2Inst (microsOf ex2 ex2Inst (.printCenter 0
        [0x41, 0x42, 0x43, 0x44, 0x45, 0x46, 0x47, 0x48, 0x49, 0x4A, 0x4B, 0x4C, 0x4D])) ex2Clear) =
      some ([0x42, 0x43, 0x44, 0x45, 0x46, 0x47, 0x48, 0x49, 0x4A, 0x4B] ++ List.replicate 20 0x20) := by decide

/-- Cursor after PRINT_CENTER 0, "HELLO", after PRINT_CENTER 0, "ABCDEFGHIJK" and after PRINT_CENTER 1, "" (V4). -/
theorem test_print_center_cursor :
    cursorOf (performAll ex2 ex2Inst (microsOf ex2 ex2Inst (.printCenter 0 [0x48, 0x45, 0x4C, 0x4C, 0x4F])) ex2Clear) =
      some (7, 0) ∧
    cursorOf (performAll ex2 ex2Inst (microsOf ex2 ex2Inst (.printCenter 0
        [0x41, 0x42, 0x43, 0x44, 0x45, 0x46, 0x47, 0x48, 0x49, 0x4A, 0x4B])) ex2Clear) = some (0, 1) ∧
    cursorOf (performAll ex2 ex2Inst (microsOf ex2 ex2Inst (.printCenter 1 [])) ex2Clear) = some (5, 1) := by decide

/-- RASTERIZE of State A (V3): blank response, borders, glyph rows, ratio. -/
theorem test_rasterize_state_A :
    lastResponse (exec (.rasterize 0 9 1) stateA) = some (0x00010000, []) ∧
    lastResponse (exec (.rasterize 1 20 3) stateA) = some (0x00030000, []) ∧
    lastResponse (exec (.rasterize 0 27 1) stateA) = some (0x80010014, pixelDigits 20 0xCCCCCCCCCCCCCCCCCCCC) ∧
    lastResponse (exec (.rasterize 0 11 0) stateA) = some (0x80010014, pixelDigits 20 0xCCE111111EEEEEEEEECC) ∧
    lastResponse (exec (.rasterize 0 15 2) stateA) = some (0x80020014, pixelDigits 20 0xCC111EE111E1E1E1E1CC) ∧
    lastResponse (exec (.rasterize 0 17 1) stateA) = some (0x80010014, pixelDigits 20 0xCC1E1111E11111EEEECC) ∧
    lastResponse (exec (.rasterize 0 26 1) stateA) = some (0x80010014, pixelDigits 20 0xCC1111111111111111CC) := by
  decide

/-- RASTERIZE with the cursor in its ON and OFF half and on a glyph, of instance 1, and of EX4 (V3). -/
theorem test_rasterize_cursor_and_geometry :
    lastResponse (exec (.rasterize 0 19 1) (State.reset.setScreen 0 { screenA with curvis := true })) =
      some (0x80010014, pixelDigits 20 0xCCEEEEEEEE11111111CC) ∧
    lastResponse (exec (.rasterize 0 19 1)
        { State.reset.setScreen 0 { screenA with curvis := true } with fc := 2 }) =
      some (0x80010014, pixelDigits 20 0xCC1111111111111111CC) ∧
    lastResponse (exec (.rasterize 0 11 1) (State.reset.setScreen 0 { screenA with curvis := true, cury := 0 })) =
      some (0x80010014, pixelDigits 20 0xCC1EEEEEE1EEEEEEEECC) ∧
    lastResponse (exec (.rasterize 1 28 1) (State.reset.setScreen 1
        { on1 with chars := [(0, 0x41), (1, 0x42)], attrs := [(0, 0x07), (1, 0x07)] })) =
      some (0x80010010, pixelDigits 16 0x0077770077777777) ∧
    lastResponse (exec (.rasterize 0 0 1) ((State.powerOn ex4 (fun _ _ => 0x21) (fun _ _ => 0x70)))) =
      some (0x8001000C, pixelDigits 12 0x077777077777) ∧
    lastResponse (exec (.rasterize 0 2 1) ((State.powerOn ex4 (fun _ _ => 0x21) (fun _ _ => 0x70)))) =
      some (0x8001000C, pixelDigits 12 0x777777777777) := by decide

/-- FRAME_TICK wraps modulo 2^32 (V5). -/
theorem test_frame_tick_wraps :
    nextState (exec .frameTick { State.reset with fc := 0xFFFFFFFF }) = some { State.reset with fc := 0 } := by decide

/-- The blink phases of V5, cycles 4 and 3, and across the wrap. -/
theorem test_blink_phases :
    ([0, 1, 2, 3, 4, 5, 6, 7].map (blinkOn ex1)) = [true, true, false, false, true, true, false, false] ∧
    ([0, 1, 2, 3].map (blinkOn { ex1 with blinkCycle := 3 })) = [true, false, false, true] ∧
    ([0xFFFFFFFE, 0xFFFFFFFF, 0].map (blinkOn ex1)) = [false, false, true] ∧
    ([0xFFFFFFFE, 0xFFFFFFFF, 0].map (blinkOn { ex1 with blinkCycle := 3 })) = [false, true, true] := by decide

/-- The table of V2. -/
theorem test_region_mapper_of_v2 :
    owned inst0 9 = false ∧ owned inst0 10 = true ∧ owned inst0 27 = true ∧ owned inst0 28 = false ∧
    owned inst1 27 = false ∧ owned inst1 28 = true ∧ owned inst1 35 = true ∧ owned inst1 36 = false ∧
    classify ex1 inst0 0 = .topBorder ∧ classify ex1 inst0 1 = .active 0 0 ∧ classify ex1 inst0 8 = .active 0 7 ∧
    classify ex1 inst0 9 = .active 1 0 ∧ classify ex1 inst0 16 = .active 1 7 ∧
    classify ex1 inst0 17 = .bottomBorder ∧ classify ex1 inst1 0 = .active 0 0 ∧
    classify ex1 inst1 7 = .active 0 7 := by decide

/-- A RASTERIZE between the two micro-steps of PRINT sees the first character only (V6, EX1 instance 0 after CLEAR). -/
theorem test_raster_request_between_two_micro_steps :
    lastResponse (step { (State.reset.setScreen 0
        { on0 with
          chars := [(0, 0x21), (1, 0x20), (2, 0x20), (3, 0x20)]
          attrs := [(0, 0x1E), (1, 0x1E), (2, 0x1E), (3, 0x1E)]
          curx := 1
          busy := [.putChar 0x22] }) with rasterRx := [0xB001000B] }) =
      some (0x80010014, pixelDigits 20 0xCCE111111E11111111CC) := by decide

/-! ## Witnesses: states and operands that meet the hypotheses of the statements -/

/-- EX3: two touching bands. -/
abbrev ex3Low : InstCfg := { start := 0, height := 8, vb := 0, hres := 8, hb := 0, initFont := 0, initAttr := 0x07 }
abbrev ex3High : InstCfg := { ex3Low with start := 8, height := 16 }

/-- A cursor of instance 0 at a cell. -/
abbrev at0 (x y : Byte) : Screen := { on0 with curx := x, cury := y }

/-- Reset with the move that grants command port 0, and words at that port. -/
abbrev served (ws : List Word) : State :=
  { State.reset with screens := [{ on0 with rx := ws }, on1], inputs := [.serve 0] }

theorem witness_DecodeOfEncodeGivesTheCommandBack :
    (Instr.setFont 1).Wf ex1 (.cmd 0) ∧ (Instr.setCursor 255 255).Wf ex1 (.cmd 1) ∧
    (Instr.print []).Wf ex1 (.cmd 0) ∧ (Instr.rasterize 1 65535 255).Wf ex1 .raster ∧
    Instr.frameTick.Wf ex1 .raster := by decide

/-- The longest text. -/
theorem witness_DecodeOfEncodeGivesTheCommandBack_longest (t : List Byte) (h : t.length = 4095) :
    (Instr.printAt 255 255 t).Wf ex1 (.cmd 0) := ⟨Nat.le_of_eq h, rfl, rfl⟩

theorem witness_TextCharacterIsItsByteOfTheDataWords :
    5 ≤ 4 * [(0x4C4C4548 : Word), 0xFFFFFF4F].length ∧ 4 < 5 ∧
    [(0x4C4C4548 : Word), 0xFFFFFF4F][4 / 4]? = some 0xFFFFFF4F ∧
    [(0x4C4C4548 : Word), 0xFFFFFF4F][0 / 4]? = some 0x4C4C4548 := by decide

/-- A text of 5: one data word is too few, two are enough; and a command without data words. -/
theorem witness_CommandWaitsForTheDataWordsItsFirstWordTells :
    dataWords 0x70050000 = 2 ∧ [(0x4C4C4548 : Word)].length < dataWords 0x70050000 ∧
    decodeFirst ex1 (.cmd 0) 0x70050000 (textOf [0x4C4C4548] (fieldN 0x70050000)) =
      .ok (.print [0x48, 0x45, 0x4C, 0x4C]) ∧
    decodeFirst ex1 (.cmd 0) 0x70050000 (textOf [0x4C4C4548, 0x0000004F] (fieldN 0x70050000)) =
      .ok (.print [0x48, 0x45, 0x4C, 0x4C, 0x4F]) ∧
    dataWords 0x10000000 = 0 ∧ decodeFirst ex1 (.cmd 0) 0x10000000 (textOf [] 0) = .ok .clear := by
  refine ⟨?_, ?_, rfl, rfl, ?_, rfl⟩ <;> decide

theorem witness_ReservedOpcodesAreRefused :
    ((0x00000000 : Word).extractLsb' 28 4).toNat ∈ [0x0, 0xD, 0xE, 0xF] ∧
    ((0xDFFFFFFF : Word).extractLsb' 28 4).toNat ∈ [0x0, 0xD, 0xE, 0xF] ∧
    ((0xFFFFFFFF : Word).extractLsb' 28 4).toNat ∈ [0x0, 0xD, 0xE, 0xF] ∧
    { State.reset with rasterRx := [0xF0000000] }.rasterRx = [0xF0000000] ∧
    State.instAt (served [0]) 0 = some (inst0, { on0 with rx := [0] }) := by decide

/-- The operand states of that statement have an admitted configuration. -/
theorem witness_served_is_admitted (ws : List Word) : (served ws).cfg.Wf := by
  show Config.boot.Wf
  decide

theorem witness_OpcodesOnTheOtherKindOfPortAreRefused :
    1 ≤ ((0x10000000 : Word).extractLsb' 28 4).toNat ∧ ((0xAFFFFFFF : Word).extractLsb' 28 4).toNat ≤ 10 ∧
    ((0xB0000000 : Word).extractLsb' 28 4).toNat = 11 ∧ ((0xCFFFFFFF : Word).extractLsb' 28 4).toNat = 12 ∧
    Instr.onItsPort .frameTick atCmd.active = false ∧ Instr.onItsPort .clear State.reset.active = false := by decide

/-- Every clause at the lowest and at the highest bit of its field. -/
theorem witness_NonzeroReservedFieldsAreRefused :
    (0x10000001 : Word).extractLsb' 0 28 ≠ 0 ∧ (0x68000000 : Word).extractLsb' 0 28 ≠ 0 ∧
    (0x20000100 : Word).extractLsb' 8 20 ≠ 0 ∧ (0x38000000 : Word).extractLsb' 8 20 ≠ 0 ∧
    (0x40010000 : Word).extractLsb' 16 12 ≠ 0 ∧ (0x48000000 : Word).extractLsb' 16 12 ≠ 0 ∧
    (0x70020001 : Word).extractLsb' 0 16 ≠ 0 ∧ (0x70008000 : Word).extractLsb' 0 16 ≠ 0 ∧
    (0x90020001 : Word).extractLsb' 0 8 ≠ 0 ∧ (0xA0020080 : Word).extractLsb' 0 8 ≠ 0 ∧
    (0xC0000001 : Word).extractLsb' 0 28 ≠ 0 ∧ (0xC8000000 : Word).extractLsb' 0 28 ≠ 0 := by decide

theorem witness_MissingFontsAndInstancesAreRefused :
    ((0x20000002 : Word).extractLsb' 28 4).toNat = 2 ∧ (0x20000002 : Word).extractLsb' 8 20 = 0 ∧
    ex1.numFonts ≤ ((0x20000002 : Word).extractLsb' 0 8).toNat ∧ ((0xB2000000 : Word).extractLsb' 28 4).toNat = 11 ∧
    ex1.numInsts ≤ ((0xB2000000 : Word).extractLsb' 24 4).toNat ∧ atCmd.instAt 0 = some (inst0, on0) ∧
    atCmd.cfg.numFonts ≤ (2 : Byte).toNat ∧ State.reset.active = .raster ∧
    State.reset.cfg.numInsts ≤ (2 : BitVec 4).toNat := by decide

/-- The last line of one band and the first line of the next; and the touching bands of EX3. -/
theorem witness_EveryLineHasAtMostOneOwner :
    ex1.insts[0]? = some inst0 ∧ ex1.insts[1]? = some inst1 ∧ owned inst0 27 = true ∧ owned inst1 28 = true ∧
    ex3High.start = ex3Low.start + ex3Low.height := by decide

theorem witness_ActiveLinesAndPixelsLieInTheBuffer :
    inst0 ∈ ex1.insts ∧ owned inst0 11 = true ∧ owned inst0 26 = true ∧
    classify ex1 inst0 (11 - inst0.start) = .active 0 0 ∧ classify ex1 inst0 (26 - inst0.start) = .active 1 7 ∧
    inst0.hb ≤ 2 ∧ 2 < inst0.hres - inst0.hb ∧ inst0.hb ≤ 17 ∧ 17 < inst0.hres - inst0.hb := by decide

theorem witness_BorderBandsAndRowsPartitionTheBand :
    inst0 ∈ ex1.insts ∧ inst1 ∈ ex1.insts ∧ 0 < ex1.rows inst0 ∧ 1 < ex1.rows inst0 ∧ 0 < ex1.gh ∧ 7 < ex1.gh := by
  decide

/-- Lines 9, 28 and 65535 are not instance 0's. -/
theorem witness_RasterizeOfALineNotOwnedIsBlank :
    State.reset.active = .raster ∧ State.reset.instAt (0 : BitVec 4).toNat = some (inst0, on0) ∧
    ¬(inst0.start ≤ 9 ∧ 9 < inst0.start + inst0.height) ∧ ¬(inst0.start ≤ 28 ∧ 28 < inst0.start + inst0.height) ∧
    ¬(inst0.start ≤ (65535 : Line).toNat ∧ (65535 : Line).toNat < inst0.start + inst0.height) := by decide

/-- For every statement whose premise is the invariant, NoStepFaults among them. -/
theorem witness_reset_meets_the_invariant : State.reset.Inv := by decide

/-- With the invariant of reset: the first and the last line of the band. -/
theorem witness_RasterizeOfAnOwnedLineEmitsHresPixels :
    State.reset.active = .raster ∧ State.reset.instAt (0 : BitVec 4).toNat = some (inst0, on0) ∧
    inst0.start ≤ (10 : Line).toNat ∧ (10 : Line).toNat < inst0.start + inst0.height ∧
    inst0.start ≤ (27 : Line).toNat ∧ (27 : Line).toNat < inst0.start + inst0.height := by decide

theorem witness_VerticalBorderLineIsAllBorderPixels :
    State.reset.active = .raster ∧ State.reset.instAt (0 : BitVec 4).toNat = some (inst0, on0) ∧
    (10 : Line).toNat - inst0.start < inst0.vb ∧ inst0.height - inst0.vb ≤ (27 : Line).toNat - inst0.start := by decide

/-- The border pixels at both ends of both borders, on the first and the last active line. -/
theorem witness_HorizontalBorderPixelsOfAnActiveLine :
    State.reset.instAt (0 : BitVec 4).toNat = some (inst0, on0) ∧ inst0.vb ≤ (11 : Line).toNat - inst0.start ∧
    (26 : Line).toNat - inst0.start < inst0.height - inst0.vb ∧ (0 < inst0.hb ∨ inst0.hres - inst0.hb ≤ 0) ∧
    (1 < inst0.hb ∨ inst0.hres - inst0.hb ≤ 1) ∧ (18 < inst0.hb ∨ inst0.hres - inst0.hb ≤ 18) ∧
    (19 < inst0.hb ∨ inst0.hres - inst0.hb ≤ 19) ∧ 19 < inst0.hres := by decide

theorem witness_ActivePixelIsTheGlyphBitThroughTheMux :
    State.reset.active = .raster ∧ State.reset.instAt (0 : BitVec 4).toNat = some (inst0, on0) ∧
    inst0.start ≤ (11 : Line).toNat ∧ inst0.vb ≤ (11 : Line).toNat - inst0.start ∧
    (26 : Line).toNat - inst0.start < inst0.height - inst0.vb ∧ inst0.hb ≤ 2 ∧ 17 < inst0.hres - inst0.hb := by decide

/-- Codes 0x20 and 0x22 are the ends of font 0's range, 0x1F and 0x23 are outside it. -/
theorem witness_CodesOutsideTheFontUseEntryZero :
    Config.ex1Font0 ∈ ex1.fonts ∧ Config.ex1Font0.first ≤ (0x20 : Byte).toNat ∧
    (0x22 : Byte).toNat < Config.ex1Font0.first + Config.ex1Font0.count ∧
    ¬(Config.ex1Font0.first ≤ (0x1F : Byte).toNat) ∧
    ¬((0x23 : Byte).toNat < Config.ex1Font0.first + Config.ex1Font0.count) ∧ 7 < ex1.gh := by decide

/-- The default decode, and ATTR_FG and ATTR_BG given as tables. -/
theorem witness_EveryAttributeHasDefinedPixelValues :
    admitted ex1 = true ∧ ex1.attrFg = none ∧ ex1.attrBg = none ∧
    ∀ t : List Byte, t.length = 256 → { ex1 with attrFg := some t, attrBg := some t : Config }.Wf := by
  refine ⟨by decide, rfl, rfl, fun t h => ?_⟩
  have hw : ex1.Wf := by decide
  obtain ⟨h7, ⟨hi, hf, hb, hp, -, -⟩, h5, h8, hg⟩ := hw
  exact ⟨h7, ⟨hi, hf, hb, hp, by simp [totalTable, h], by simp [totalTable, h]⟩, h5, h8, hg⟩

/-- Line 19 shows the row of the cursor; the cursor is visible and in its ON half. -/
theorem witness_CursorInversionAffectsOnlyTheCursorCell :
    let s := State.reset.setScreen 0 { screenA with curvis := true }
    s.Inv ∧ s.active = .raster ∧ s.instAt (0 : BitVec 4).toNat = some (inst0, { screenA with curvis := true }) ∧
    inst0.start ≤ (19 : Line).toNat ∧ (19 : Line).toNat < inst0.start + inst0.height ∧ blinkOn s.cfg s.fc = true ∧
    (19 - inst0.start - inst0.vb) / s.cfg.gh = screenA.cury.toNat ∧ inst0.hb ≤ 2 ∧
    (2 - inst0.hb) / s.cfg.gw = screenA.curx.toNat ∧ (9 - inst0.hb) / s.cfg.gw = screenA.curx.toNat := by decide

/-- Two states that differ in the default attribute, the words and the command at the port, and the other instance. -/
theorem witness_ResponseDependsOnNothingElse :
    let s := stateA
    let s' := (stateA.setScreen 0 { screenA with defattr := 0xFF, rx := [0], busy := [.home] }).setScreen 1
      { on1 with curvis := true }
    s.cfg = s'.cfg ∧ s.fc = s'.fc ∧ s.active = .raster ∧ s'.active = .raster ∧
    s.instAt (0 : BitVec 4).toNat = some (inst0, screenA) ∧
    s'.instAt (0 : BitVec 4).toNat = some (inst0, { screenA with defattr := 0xFF, rx := [0], busy := [.home] }) := by
  decide

/-- For RatioSetsRepeatAndNoPixel, at every RATIO. -/
theorem witness_RasterizeAnswersANextState (ratio : Byte) : ∃ t, exec (.rasterize 0 11 ratio) stateA = .next t :=
  ⟨_, rfl⟩

/-- CLEAR completed on instance 0 of EX1, whose font has a blank space. -/
theorem witness_ClearScreenRendersFlat :
    (∃ scr', performAll ex1 inst0 (microsOf ex1 inst0 .clear) screenA = some scr' ∧
      ex1.fonts[scr'.fontsel.toNat]? = some Config.ex1Font0 ∧
      cursorHere ex1 scr' stateA.fc ((11 - inst0.start - inst0.vb) / ex1.gh) ((2 - inst0.hb) / ex1.gw) = false) ∧
    stateA.Inv ∧
    (∀ sub x, sub < ex1.gh → x < ex1.gw →
      glyphBit ex1 Config.ex1Font0 (glyphEntry Config.ex1Font0 0x20) sub x = false) := by
  have h : ∀ sub < 8, ∀ x < 8, glyphBit ex1 Config.ex1Font0 (glyphEntry Config.ex1Font0 0x20) sub x = false := by
    decide
  exact ⟨⟨_, rfl, rfl, rfl⟩, by decide, fun sub x h1 h2 => h sub h1 x h2⟩

theorem witness_FrameTickIncrementsTheFrameCounterOnly :
    { State.reset with fc := 0xFFFFFFFF }.active = .raster := by decide

/-- A step that ticks and a step that does not. -/
theorem witness_OnlyFrameTickWritesTheFrameCounter :
    (∃ t, step { State.reset with rasterRx := [0xC0000000] } = .next t ∧ t.fc = 1) ∧
    (∃ t, step State.reset = .next t ∧ t.fc = 0) := ⟨⟨_, rfl, rfl⟩, ⟨_, rfl, rfl⟩⟩

/-- A cycle that divides 2^32 and one that does not. -/
theorem witness_BlinkPhaseAtTheWrapOfTheFrameCounter :
    admitted ex1 = true ∧ ex1.blinkCycle ∣ 2 ^ 32 ∧ admitted { ex1 with blinkCycle := 3 } = true ∧ ¬3 ∣ 2 ^ 32 := by
  decide

theorem witness_CursorStateMachine : on0.curvis = false ∧ { on0 with curvis := true }.curvis = true := by decide

/-- One state for SetFontWritesTheFontSelectionOnly, SetAttrWritesTheDefaultAttributeOnly,
SetCursorWritesTheClampedPositionOnly, ShowAndHideWriteTheVisibilityFlagOnly, ClearPerformsItsFirstMicroStep and
PositionedPrintsMoveTheCursorFirst. -/
theorem witness_console_command :
    atCmd.active = .cmd 0 ∧ atCmd.instAt 0 = some (inst0, on0) ∧ on0.busy = [] ∧ (0 : Byte).toNat < atCmd.cfg.numFonts ∧
    (1 : Byte).toNat < atCmd.cfg.numFonts := by decide

theorem witness_console_command_admitted : atCmd.cfg.Wf := by
  show Config.boot.Wf
  decide

/-- The cursor on the first and on the last cell. -/
theorem witness_PrintPerformsItsFirstCharacter :
    CursorOk ex1 inst0 (at0 0 0) ∧ CursorOk ex1 inst0 (at0 1 1) ∧
    ({ atCmd with screens := [at0 1 1, on1] }).instAt 0 = some (inst0, at0 1 1) := by decide

/-- Commands with and without micro-steps: PRINT of the empty text has none. -/
theorem witness_EveryConsoleCommandStartsItsMicroSteps :
    ScreenOk ex1 inst0 on0 ∧ Instr.isRaster (.setFont 1) = false ∧ Instr.valuesExist ex1 (.setFont 1) = true ∧
    microsOf ex1 inst0 (.print []) = [] ∧ microsOf ex1 inst0 (.setFont 1) = [.setFont 1] ∧
    microsOf ex1 inst0 (.printRight 0 []) = [.setCursor 2 0] := by decide

/-- The three cases of the cursor's advance. -/
theorem witness_PutCharWritesTheCellAndAdvancesTheCursor :
    inst0 ∈ ex1.insts ∧ on0.chars.Wf ∧ on0.attrs.Wf ∧
    (CursorOk ex1 inst0 (at0 0 1) ∧ (0 : Byte).toNat + 1 < ex1.cols inst0) ∧
    (CursorOk ex1 inst0 (at0 1 0) ∧ ¬(1 : Byte).toNat + 1 < ex1.cols inst0 ∧ (0 : Byte).toNat + 1 < ex1.rows inst0) ∧
    (CursorOk ex1 inst0 (at0 1 1) ∧ ¬(1 : Byte).toNat + 1 < ex1.cols inst0 ∧ ¬(1 : Byte).toNat + 1 < ex1.rows inst0) := by
  decide

theorem witness_ClearResetsEveryCellAndTheCursor :
    inst0 ∈ ex1.insts ∧ screenA.chars.Wf ∧ screenA.attrs.Wf ∧ 1 < ex1.rows inst0 ∧ 1 < ex1.cols inst0 := by decide

/-- A text longer than the buffer: character 0 is overwritten by character 4, character 4 is the last one there. -/
theorem witness_PrintInClosedForm :
    CursorOk ex1 inst0 screenA ∧ screenA.chars.Wf ∧ screenA.attrs.Wf ∧
    [(0x41 : Byte), 0x42, 0x43, 0x44, 0x45][4]? = some 0x45 ∧
    (∀ j' < 5, 4 < j' → (2 + j') % 4 ≠ (2 + 4) % 4) ∧ (∀ j < 1, (2 + j) % 4 ≠ 3) := by decide

theorem witness_PrintRightEndsInTheLastColumn :
    ex2Inst ∈ ex2.insts ∧ ex2Clear.chars.Wf ∧ ex2Clear.attrs.Wf ∧ [(0x48 : Byte), 0x49].getLast? = some 0x49 := by decide

theorem witness_ex2_admitted : ex2.Wf := by decide

/-- Texts shorter than the row, as long as the row, and longer. -/
theorem witness_AlignedPrintsPlaceTheirText :
    ex2Inst ∈ ex2.insts ∧ ex2Clear.chars.Wf ∧ ex2Clear.attrs.Wf ∧ min 5 (ex2.cols ex2Inst) = 5 ∧
    min 10 (ex2.cols ex2Inst) = 10 ∧ min 13 (ex2.cols ex2Inst) = 10 := by decide

theorem witness_PrintAfterClampingLandsInTheLastCell :
    ex2Inst ∈ ex2.insts ∧ ex2Clear.chars.Wf ∧ ex2Clear.attrs.Wf ∧ ex2.cols ex2Inst ≤ (10 : Byte).toNat ∧
    ex2.rows ex2Inst ≤ (3 : Byte).toNat := by decide

theorem witness_WholeCommandsWriteOnlyTheirRegisters (i : Instr) (h : i = .clear ∨ i = .setFont 1 ∨ i = .print [0x41]) :
    ∃ scr', performAll ex1 inst0 (microsOf ex1 inst0 i) on0 = some scr' := by
  rcases h with rfl | rfl | rfl <;> exact ⟨_, rfl⟩

/-- A step of command port 0, and another state in which only the other instance and FC differ. -/
theorem witness_ConsoleStepsTouchOnlyTheirInstance :
    (∃ t, stepCommand 0 (served [0x50000000]) = .next t) ∧
    ({ served [0x50000000] with fc := 7, screens := [{ on0 with rx := [0x50000000] }, { on1 with curvis := true }] }).cfg =
      (served [0x50000000]).cfg ∧
    ({ served [0x50000000] with fc := 7, screens := [{ on0 with rx := [0x50000000] }, { on1 with curvis := true }] }).screens[0]? =
      (served [0x50000000]).screens[0]? := ⟨⟨_, rfl⟩, rfl, rfl⟩

/-- A configuration that is admitted and one that is not. -/
theorem witness_ConstructionGivesThePowerOnState :
    admitted ex1 = true ∧ admitted { ex1 with blinkCycle := 1 } = false ∧
    (State.powerOn ex1 (fun _ _ => 0xAA) (fun _ _ => 0x55)).instAt 1 =
      some (inst1, Screen.powerOn inst1 [(0, 0xAA), (1, 0xAA)] [(0, 0x55), (1, 0x55)]) ∧ 1 < ex1.rows inst1 * ex1.cols inst1 := by
  decide

/-- SHOW_CURSOR and the first word of a PRINT at command port 0. -/
theorem witness_StepRunsTheDecodedConsoleCommand :
    (served [0x50000000]).rasterRx = [] ∧ (served [0x50000000]).inputs = [.serve 0] ∧
    (served [0x50000000]).instAt 0 = some (inst0, { on0 with rx := [0x50000000] }) ∧
    decode (served [0x50000000]).cfg (.cmd 0) [0x50000000] = .instr .showCursor [] := by decide

theorem witness_StepRunsTheDecodedRasterRequest :
    decode ex1 .raster [0xB001000A, 0xC0000000] = .instr (.rasterize 0 10 1) [0xC0000000] ∧
    decode ex1 .raster [0xC0000000] = .instr .frameTick [] := by decide

theorem witness_StepPerformsTheNextMicroStep :
    ({ State.reset with screens := [{ on0 with busy := [.home] }, on1], inputs := [.serve 0] }).instAt 0 =
      some (inst0, { on0 with busy := [.home] }) ∧
    perform ex1 inst0 { on0 with busy := [.home] } .home = some { on0 with busy := [.home] } := by decide

theorem witness_NothingHappensWithoutAWholeCommand :
    decode (served [0x70020000]).cfg (.cmd 0) [0x70020000] = .incomplete ∧ (served [0x70020000]).rasterRx = [] ∧
    State.reset.rasterRx = [] ∧ State.reset.inputs = [] := by decide

theorem witness_no_port_of_reset_is_ready (n : Nat) : State.reset.ready n = false := by
  match n with
  | 0 => decide
  | 1 => decide
  | n + 2 => rfl

theorem witness_WordsArriveInTheOrderSent :
    ({ State.reset with inputs := [.send (.cmd 1) 0x10000000] }).instAt 1 = some (inst1, on1) ∧
    ({ State.reset with inputs := [.send .raster 0xC0000000] }).rasterRx = [] ∧
    ({ State.reset with inputs := [.serve 2] }).instAt 2 = none := by decide

theorem witness_RasterRequestsGoFirst :
    ∃ t, step { served [0x50000000] with rasterRx := [0xC0000000, 0xB001000A] } = .next t := ⟨_, rfl⟩

/-- Steps that answer a next state, for NoStepChangesTheConfiguration and EveryStepKeepsTheInvariant: a console command, a
raster request, a word that arrives, nothing to do. -/
theorem witness_steps_answer_next_states :
    answersNext (step (served [0x50000000])) = true ∧
    answersNext (step { State.reset with rasterRx := [0xB001000A] }) = true ∧
    answersNext (step { State.reset with inputs := [.send (.cmd 1) 0] }) = true ∧
    answersNext (step State.reset) = true ∧ (served [0x50000000]).Inv := by decide

theorem witness_CursorStaysInTheBufferInEveryReachableState :
    ∃ t, SafeRun 2 { State.powerOn ex1 (fun _ _ => 0) (fun _ _ => 0) with
      inputs := [.send (.cmd 0) 0x4000FFFF, .serve 0] } t ∧ (∃ g scr, t.instAt 0 = some (g, scr)) :=
  ⟨_, rfl, _, _, rfl⟩

/-- Every reason of the decoder at a port that meets it: the raster port, a granted command port, and the command port
that goes when the host has no moves. -/
theorem witness_RefusalStaysForTheRestOfTheRun_decoder :
    decode ex1 .raster [0x00000000] = .refuse .reservedOpcode [] ∧
    decode ex1 .raster [0xA0010000, 0x00000041] = .refuse .wrongPort [] ∧
    decode ex1 .raster [0xC8000000] = .refuse .nonzeroReservedField [] ∧
    decode ex1 .raster [0xB2000000] = .refuse .noSuchInstance [] ∧
    (served [0x20000002]).instAt 0 = some (inst0, { on0 with rx := [0x20000002] }) ∧
    decode ex1 (.cmd 0) [0x20000002] = .refuse .noSuchFont [] ∧
    { served [0x70020001] with inputs := [] }.firstReady = some 0 ∧
    { served [0x70020001] with inputs := [] }.instAt 0 = some (inst0, { on0 with rx := [0x70020001] }) ∧
    decode ex1 (.cmd 0) [0x70020001] = .refuse .nonzeroReservedField [] := by decide

/-- A run refused at its first step, and a configuration that is not admitted. -/
theorem witness_RefusalStaysForTheRestOfTheRun :
    Host.Core.run Sys2Proof.core 1 { State.reset with rasterRx := [0xD0000000] } = .refused .reservedOpcode ∧
    ¬({ State.reset with cfg := { ex1 with blinkCycle := 1 } }).cfg.Wf := by
  refine ⟨rfl, ?_⟩
  show ¬Config.Wf { ex1 with blinkCycle := 1 }
  decide

/-- PRINT of two characters granted two steps, and PRINT of the empty text granted one. -/
theorem witness_ConsoleCommandsRunToCompletion :
    let s := { served [0x70020000, 0x00002221] with inputs := [.serve 0, .serve 0] }
    let e := served [0x70000000]
    s.Inv ∧ s.rasterRx = [] ∧ s.instAt 0 = some (inst0, { on0 with rx := [0x70020000, 0x00002221] }) ∧
    decode s.cfg (.cmd 0) [0x70020000, 0x00002221] = .instr (.print [0x21, 0x22]) [] ∧
    s.inputs = List.replicate (max 1 (microsOf s.cfg inst0 (.print [0x21, 0x22])).length) (.serve 0) ++ [] ∧
    decode e.cfg (.cmd 0) [0x70000000] = .instr (.print []) [] ∧
    e.inputs = List.replicate (max 1 (microsOf e.cfg inst0 (.print [])).length) (.serve 0) ++ [] := by decide

theorem witness_StepsOfDifferentPortsCommute :
    ∃ t, SafeRun 2 { State.reset with
      screens := [{ on0 with rx := [0x50000000] }, { on1 with rx := [0x10000000] }]
      inputs := [.serve 0, .serve 1] } t := ⟨_, rfl⟩

end Sys2Proof.Tests
end

section
/-! PROOFS. The configuration and the cursor (10_state.md R42, R37): what every step keeps, and what power-on starts with. -/

namespace Sys2Proof.Machine

/-! ## The configuration -/

/-- A command of the raster port keeps the configuration. -/
theorem exec_raster_cfg (s t : State) (i : Instr) (hr : i.isRaster = true) (h : exec i s = .next t) : t.cfg = s.cfg := by
  obtain ⟨-, ⟨inst, line, ratio, g, scr, r, -, -, -, rfl⟩ | ⟨-, rfl⟩⟩ := exec_raster_next s t i hr h
  · rfl
  · rfl

/-- A step of a command port keeps the configuration. -/
theorem stepCommand_cfg (n : Nat) (s t : State) (h : stepCommand n s = .next t) : t.cfg = s.cfg := by
  obtain ⟨scr', a, rfl⟩ := stepCommand_frame n s t h
  rfl

/-- A step of the system keeps the configuration (10_state.md R42). -/
theorem step_cfg (s t : State) (h : step s = .next t) : t.cfg = s.cfg := by
  obtain ⟨-, hraster | ⟨-, hconsole⟩⟩ := step_next s t h
  · obtain ⟨w, rest, i, -, hd, he⟩ := hraster
    exact exec_raster_cfg (s.takeRaster rest) t i (decode_raster _ _ _ _ hd).1 he
  · obtain ⟨w, more, -, rfl⟩ | ⟨n, w, more, g, scr, -, -, rfl⟩ | ⟨n, more, -, hs⟩ | ⟨-, n, -, hs⟩ | ⟨-, rfl⟩ := hconsole
    · rfl
    · rfl
    · exact stepCommand_cfg n { s with inputs := more } t hs
    · exact stepCommand_cfg n s t hs
    · rfl

/-- Settles O54: every kind of step replaces fields other than the configuration. -/
theorem noStepChangesTheConfiguration : Obligations.NoStepChangesTheConfiguration :=
  step_cfg

/-! ## Every step keeps the invariant -/

/-- The invariant speaks of the configuration and the instances only. -/
theorem State.Inv.congr {s t : State} (h : s.Inv) (hc : t.cfg = s.cfg) (hs : t.screens = s.screens) : t.Inv := by
  unfold State.Inv
  rw [hc, hs]
  exact h

/-- Performing the first of a list of micro-steps that name only what exists, and keeping the rest as the command in
progress, keeps the invariant. -/
theorem State.runMicros_keeps_inv (s t : State) (n : Nat) (g : InstCfg) (scr : Screen) (ms : List Micro) (h : s.Inv)
    (hi : s.instAt n = some (g, scr)) (hm : ∀ m ∈ ms, m.Ok s.cfg g = true) (hr : s.runMicros n g scr ms = .next t) :
    t.Inv := by
  obtain ⟨hcur, hf, hch, hat, -⟩ := State.inv_instAt s n g scr h hi
  obtain ⟨scr', hnext, hok⟩ :=
    State.runMicros_ok s n g scr ms (State.instAt_wf s n g scr h.1 hi).2 ⟨hcur, hf, hch, hat⟩ hm
  rw [hnext, Host.Outcome.next.injEq] at hr
  subst hr
  exact State.inv_setScreen s n g scr scr' h hi hok

/-- Changing only the words a command port holds keeps the invariant. -/
theorem State.inv_setScreen_rx (s : State) (n : Nat) (g : InstCfg) (scr : Screen) (ws : List Word) (h : s.Inv)
    (hi : s.instAt n = some (g, scr)) : (s.setScreen n { scr with rx := ws }).Inv :=
  State.inv_setScreen s n g scr _ h hi (State.inv_instAt s n g scr h hi)

/-- A step of a command port keeps the invariant: the command in progress names only what exists, and so does every
command the decoder accepts. -/
theorem stepCommand_keeps_inv (n : Nat) (s t : State) (h : s.Inv) (hs : stepCommand n s = .next t) : t.Inv := by
  obtain ⟨g, scr, hi, hcase⟩ := stepCommand_next n s t hs
  obtain ⟨m, ms, hb, hr⟩ | ⟨-, -, rfl⟩ | ⟨-, i, rest, hd, hr⟩ := hcase
  · obtain ⟨-, -, -, -, hbusy⟩ := State.inv_instAt s n g scr h hi
    exact State.runMicros_keeps_inv s t n g scr _ h hi (hb ▸ hbusy) hr
  · exact h
  · have htake : (s.takeCommand n scr rest).Inv := (State.inv_setScreen_rx s n g scr rest h hi).congr rfl rfl
    exact State.runMicros_keeps_inv _ t n g _ _ htake (State.instAt_takeCommand_self s n scr rest g hi)
      (microsOf_ok s.cfg g i (decode_cmd _ _ _ _ _ hd).2) hr

/-- A command of the raster port keeps the invariant: it writes no instance (41_rasterize.md R108, 43_frame_blink.md
R130). -/
theorem exec_raster_keeps_inv (s t : State) (i : Instr) (hr : i.isRaster = true) (h : s.Inv) (he : exec i s = .next t) :
    t.Inv := by
  obtain ⟨-, ⟨inst, line, ratio, g, scr, r, -, -, -, rfl⟩ | ⟨-, rfl⟩⟩ := exec_raster_next s t i hr he
  · exact h.congr rfl rfl
  · exact h.congr rfl rfl

/-- A step of the system keeps the invariant (10_state.md R43). -/
theorem step_keeps_inv (s t : State) (h : s.Inv) (hs : step s = .next t) : t.Inv := by
  obtain ⟨-, hraster | ⟨-, hconsole⟩⟩ := step_next s t hs
  · obtain ⟨w, rest, i, -, hd, he⟩ := hraster
    exact exec_raster_keeps_inv (s.takeRaster rest) t i (decode_raster _ _ _ _ hd).1 (h.congr rfl rfl) he
  · obtain ⟨w, more, -, rfl⟩ | ⟨n, w, more, g, scr, -, hi, rfl⟩ | ⟨n, more, -, hc⟩ | ⟨-, n, -, hc⟩ | ⟨-, rfl⟩ := hconsole
    · exact h.congr rfl rfl
    · exact (State.inv_setScreen_rx s n g scr _ h hi).congr rfl rfl
    · exact stepCommand_keeps_inv n { s with inputs := more } t (h.congr rfl rfl) hc
    · exact stepCommand_keeps_inv n s t h hc
    · exact h

/-- What every step keeps holds at the end of a safe run. -/
theorem safeRun_induction (P : State → Prop) (hstep : ∀ s t, P s → step s = .next t → P t) (k : Nat) (s t : State)
    (h : P s) (hrun : SafeRun k s t) : P t := by
  induction k generalizing s with
  | zero => exact (safeRun_zero s t).1 hrun ▸ h
  | succ k ih =>
    obtain ⟨s', hs, hrest⟩ := (safeRun_succ k s t).1 hrun
    exact ih s' (hstep s s' h hs) hrest

/-! ## Power-on -/

/-- An instance of an admitted configuration is in a legal state right after construction (70_reset_and_hazards.md R155),
whatever its planes hold. -/
theorem Screen.powerOn_ok (c : Config) (g : InstCfg) (chars attrs : Memory) (hw : c.InstWf g) (hch : PlaneOk c g chars)
    (hat : PlaneOk c g attrs) : ScreenOk c g (Screen.powerOn g chars attrs) := by
  obtain ⟨-, -, ⟨⟨hcols, -⟩, hrows, -⟩, -, hfont, -⟩ := hw
  exact ⟨⟨hcols, hrows⟩, hfont, hch, hat, by simp [Screen.powerOn]⟩

/-- A plane as drawn has an instance's buffer as its cells. -/
theorem planeOk_ofDraw (c : Config) (g : InstCfg) (draw : Nat → Byte) :
    PlaneOk c g (Memory.ofDraw (c.rows g * c.cols g) draw) :=
  ⟨(Memory.ofDraw_spec _ draw).1, (Memory.ofDraw_spec _ draw).2.1⟩

/-- Instance n after power-on: its parameters from the configuration, its planes from its own draw. -/
theorem State.powerOn_instAt (c : Config) (drawChars drawAttrs : Nat → Nat → Byte) (n : Nat) (g : InstCfg) (scr : Screen)
    (h : (State.powerOn c drawChars drawAttrs).instAt n = some (g, scr)) :
    g ∈ c.insts ∧ scr = Screen.powerOn g (Memory.ofDraw (c.rows g * c.cols g) (drawChars n))
      (Memory.ofDraw (c.rows g * c.cols g) (drawAttrs n)) := by
  obtain ⟨hg, hscr⟩ := (State.instAt_eq_some ..).1 h
  have hg : c.insts[n]? = some g := hg
  refine ⟨List.mem_of_getElem? hg, ?_⟩
  simpa [State.powerOn, hg, eq_comm] using hscr

/-- Power-on from an admitted configuration meets the invariant, for every draw (70_reset_and_hazards.md R155, R156). -/
theorem State.powerOn_inv (c : Config) (drawChars drawAttrs : Nat → Nat → Byte) (hw : c.Wf) :
    (State.powerOn c drawChars drawAttrs).Inv := by
  rw [State.inv_iff]
  refine ⟨hw, by simp [State.powerOn], fun n g scr hi => ?_⟩
  obtain ⟨hg, rfl⟩ := State.powerOn_instAt c drawChars drawAttrs n g scr hi
  obtain ⟨-, -, -, -, hinsts⟩ := hw
  exact Screen.powerOn_ok c g _ _ (hinsts g hg) (planeOk_ofDraw c g _) (planeOk_ofDraw c g _)

/-- Every state a safe run reaches from power-on meets the invariant, whatever the host's moves. -/
theorem reachable_inv (c : Config) (drawChars drawAttrs : Nat → Nat → Byte) (moves : List Input) (k : Nat) (t : State)
    (hw : c.Wf) (hrun : SafeRun k { State.powerOn c drawChars drawAttrs with inputs := moves } t) : t.Inv := by
  refine safeRun_induction State.Inv step_keeps_inv k _ t ?_ hrun
  exact (State.powerOn_inv c drawChars drawAttrs hw).congr rfl rfl

/-- Settles O56: the invariant holds in every reachable state, and with the cursor on a cell PutChar succeeds. -/
theorem cursorStaysInTheBufferInEveryReachableState : Obligations.CursorStaysInTheBufferInEveryReachableState := by
  intro c drawChars drawAttrs moves k t n g scr ch hw hrun hi
  have hinv : t.Inv := reachable_inv c drawChars drawAttrs moves k t hw hrun
  obtain ⟨hcur, -⟩ := State.inv_instAt t n g scr hinv hi
  have hput : (putChar t.cfg g scr ch).isSome = true := by rw [putChar_eq t.cfg g scr ch hcur]; rfl
  exact ⟨hcur.1, hcur.2, hput⟩

end Sys2Proof.Machine
end

section
/-! PROOFS. Encoding (30_encoding.md R74, R81): the characters of a text, and the commands refused for a missing font or
instance. -/

namespace Sys2Proof.Laws

/-! ## Characters of a text -/

/-- Byte k of a data word is its bits 8k+7 to 8k (20_memory.md R51). -/
theorem wordBytes_getElem? (d : Word) (k : Nat) (hk : k < 4) : (wordBytes d)[k]? = some (d.extractLsb' (8 * k) 8) := by
  match k, hk with
  | 0, _ => rfl
  | 1, _ => rfl
  | 2, _ => rfl
  | 3, _ => rfl

/-- Byte k of a list of data words is byte k mod 4 of word k div 4: the first word holds the first four, and the others
stand four places on (30_encoding.md R74). -/
theorem flatMap_wordBytes_getElem? (ds : List Word) (k : Nat) (d : Word) (hd : ds[k / 4]? = some d) :
    (ds.flatMap wordBytes)[k]? = some (d.extractLsb' (8 * (k % 4)) 8) := by
  induction ds generalizing k with
  | nil => simp at hd
  | cons e es ih =>
    have hlen : (wordBytes e).length = 4 := rfl
    rw [List.flatMap_cons]
    by_cases hk : k < 4
    · rw [Nat.div_eq_of_lt hk, List.getElem?_cons_zero, Option.some_inj] at hd
      rw [List.getElem?_append_left (hlen ▸ hk), Nat.mod_eq_of_lt hk, wordBytes_getElem? e k hk, hd]
    · obtain ⟨j, rfl⟩ := Nat.exists_eq_add_of_le' (Nat.le_of_not_lt hk)
      rw [Nat.add_div_right j (by decide), List.getElem?_cons_succ] at hd
      rw [List.getElem?_append_right (by omega), hlen, Nat.add_sub_cancel, Nat.add_mod_right, ih j hd]

/-- Settles O3: the text is the first n bytes of its data words. -/
theorem textCharacterIsItsByteOfTheDataWords : Obligations.TextCharacterIsItsByteOfTheDataWords := by
  intro ds n k d hn hk hd
  refine ⟨textOf_length ds n hn, ?_⟩
  rw [textOf, List.getElem?_take_of_lt hk, flatMap_wordBytes_getElem? ds k d hd]

end Sys2Proof.Laws

namespace Sys2Proof.Machine

open Sys2Proof.Laws

/-! ## Refusals of a missing font or instance -/

/-- A first word that is refused whatever the text is refused at once, with its data words (30_encoding.md R78). -/
theorem decode_refuse (c : Config) (p : Port) (w : Word) (rest : List Word) (e : DecodeError)
    (h : ∀ t, decodeFirst c p w t = .error e) : decode c p (w :: rest) = .refuse e (rest.drop (dataWords w)) := by
  simp only [decode, h]

/-- A refused command of another format than T takes no data words with it (30_encoding.md R76). -/
theorem decode_refuse_single (c : Config) (p : Port) (w : Word) (rest : List Word) (e : DecodeError)
    (hop : ¬(7 ≤ opOf w ∧ opOf w ≤ 10)) (h : ∀ t, decodeFirst c p w t = .error e) :
    decode c p (w :: rest) = .refuse e rest := by
  rw [decode_refuse c p w rest e h, ← dataWords_single w hop, List.length_nil, List.drop_zero]

/-- SET_FONT with V ≥ NUM_FONTS, its must-be-zero field zero. -/
theorem decodeFirst_missingFont (c : Config) (n : Nat) (w : Word) (t : List Byte) (hop : opOf w = 2)
    (hz : w.extractLsb' 8 20 = 0) (hv : c.numFonts ≤ (fieldV w).toNat) :
    decodeFirst c (.cmd n) w t = .error .noSuchFont := by
  simp [decodeFirst, hop, hz, hv]

/-- RASTERIZE with INST ≥ NI. -/
theorem decodeFirst_missingInstance (c : Config) (w : Word) (t : List Byte) (hop : opOf w = 11)
    (hi : c.numInsts ≤ (fieldInst w).toNat) : decodeFirst c .raster w t = .error .noSuchInstance := by
  simp [decodeFirst, hop, hi]

/-- An instance at or above NI does not exist. -/
theorem State.instAt_eq_none (s : State) (i : Nat) (h : s.cfg.numInsts ≤ i) : s.instAt i = none := by
  rw [Option.eq_none_iff_forall_ne_some]
  rintro ⟨g, scr⟩ hi
  have hg : s.cfg.insts[i]? = some g := ((State.instAt_eq_some ..).1 hi).1
  rw [List.getElem?_eq_none h] at hg
  cases hg

/-- The meaning of SET_FONT refuses a font that does not exist. -/
theorem exec_setFont_missing (s : State) (n : Nat) (g : InstCfg) (scr : Screen) (v : Byte) (ha : s.active = .cmd n)
    (hi : s.instAt n = some (g, scr)) (hv : s.cfg.numFonts ≤ v.toNat) : exec (.setFont v) s = .refused .noSuchFont := by
  simp only [exec, execSetFont, State.onPort_eq s n g scr _ ha hi, if_neg (Nat.not_lt.2 hv)]

/-- The meaning of RASTERIZE refuses an instance that does not exist. -/
theorem exec_rasterize_missing (s : State) (inst : BitVec 4) (line : Line) (ratio : Byte) (ha : s.active = .raster)
    (hi : s.cfg.numInsts ≤ inst.toNat) : exec (.rasterize inst line ratio) s = .refused .noSuchInstance := by
  simp only [exec, execRasterize, ha, State.instAt_eq_none s _ hi]

/-- Settles O8: the decoder's two checks and those of the two meanings. -/
theorem missingFontsAndInstancesAreRefused : Obligations.MissingFontsAndInstancesAreRefused := by
  refine ⟨fun c n w rest hop hz hv => ?_, fun c w rest hop hi => ?_, exec_setFont_missing, exec_rasterize_missing⟩
  · change opOf w = 2 at hop
    exact decode_refuse_single c _ w rest _ (by omega) fun t => decodeFirst_missingFont c n w t hop hz hv
  · change opOf w = 11 at hop
    exact decode_refuse_single c _ w rest _ (by omega) fun t => decodeFirst_missingInstance c w t hop hi

end Sys2Proof.Machine
end

section
/-! PROOFS. The Raster Region Mapper (40_region_mapper.md R90, R93, R94): who owns a line, and where its active lines and
pixels lie in the buffer. -/

namespace Sys2Proof.Machine

/-! ## Ownership -/

/-- An instance owns the lines of its band (40_region_mapper.md R87). -/
theorem owned_iff (g : InstCfg) (line : Nat) : owned g line = true ↔ g.start ≤ line ∧ line < g.start + g.height := by
  simp [owned]

/-- Instances with disjoint bands do not own a line both. -/
theorem not_both_owned_of_disjoint {g h : InstCfg} (hd : g.Disjoint h) (line : Nat) :
    ¬(owned g line = true ∧ owned h line = true) := by
  rw [owned_iff, owned_iff]
  rintro ⟨hg, hh⟩
  cases hd with
  | inl hgh => omega
  | inr hhg => omega

/-- A later instance's band is disjoint from an earlier one's (00_scope.md R18, WF5). -/
theorem disjoint_of_lt {c : Config} (hw : c.WF5) {i j : Nat} {g h : InstCfg} (hij : i < j)
    (hi : c.insts[i]? = some g) (hj : c.insts[j]? = some h) : g.Disjoint h := by
  obtain ⟨hil, rfl⟩ := List.getElem?_eq_some_iff.1 hi
  obtain ⟨hjl, rfl⟩ := List.getElem?_eq_some_iff.1 hj
  exact List.pairwise_iff_getElem.1 hw i j hil hjl hij

/-- Under WF5 an owned line tells its instance (40_region_mapper.md R93). -/
theorem owner_unique {c : Config} (hw : c.WF5) {i j : Nat} {g h : InstCfg} {line : Nat}
    (hi : c.insts[i]? = some g) (hj : c.insts[j]? = some h) (hg : owned g line = true) (hh : owned h line = true) :
    i = j := by
  obtain hlt | heq | hgt := Nat.lt_trichotomy i j
  · exact absurd ⟨hg, hh⟩ (not_both_owned_of_disjoint (disjoint_of_lt hw hlt hi hj) line)
  · exact heq
  · exact absurd ⟨hh, hg⟩ (not_both_owned_of_disjoint (disjoint_of_lt hw hgt hj hi) line)

/-- Two touching bands cover the lines from the first start to the last end (40_region_mapper.md R94). -/
theorem owned_or_owned_iff_of_touching {g h : InstCfg} (ht : h.start = g.start + g.height) (line : Nat) :
    owned g line = true ∨ owned h line = true ↔ g.start ≤ line ∧ line < h.start + h.height := by
  rw [owned_iff, owned_iff]
  omega

/-- Where not both hold, exactly one holds when some one does. -/
theorem xor_iff_or_of_not_and : ∀ {a b : Bool}, ¬(a = true ∧ b = true) → (xor a b = true ↔ a = true ∨ b = true) := by
  decide

/-- Settles O9: bands of different instances are disjoint by WF5, touching ones because one ends where the other starts;
so of two touching bands one or both own a line exactly when one alone does. -/
theorem everyLineHasAtMostOneOwner : Obligations.EveryLineHasAtMostOneOwner := by
  refine ⟨fun c i j g h line hw hi hj hg hh => ?_, fun g h line ht => ?_⟩
  · obtain ⟨-, -, hw5, -, -⟩ := hw
    exact owner_unique hw5 hi hj hg hh
  · have hnot := not_both_owned_of_disjoint (.inl ht.ge) line
    exact ⟨by rw [xor_iff_or_of_not_and hnot, owned_or_owned_iff_of_touching ht], hnot⟩

/-! ## Rows, columns and glyph cells -/

/-- The active lines of a band, with their row and sub-row (40_region_mapper.md R89). -/
theorem classify_eq_active_iff (c : Config) (g : InstCfg) (l row sub : Nat) :
    classify c g l = .active row sub ↔
      (g.vb ≤ l ∧ l < g.height - g.vb) ∧ row = (l - g.vb) / c.gh ∧ sub = (l - g.vb) % c.gh := by
  constructor
  · intro h
    unfold classify at h
    split at h
    · cases h
    · split at h
      · cases h
      · cases h
        exact ⟨by omega, rfl, rfl⟩
  · rintro ⟨⟨htop, hbottom⟩, rfl, rfl⟩
    exact classify_active c g l htop hbottom

/-- Of a span of whole cells of size `d` between two margins of size `m`, an offset inside lies in one of the cells. -/
theorem sub_div_lt_of_between_margins {n m d p : Nat} (hd : (n - 2 * m) % d = 0) (hlo : m ≤ p) (hhi : p < n - m) :
    (p - m) / d < (n - 2 * m) / d :=
  Nat.div_lt_div_of_lt_of_dvd (Nat.dvd_of_mod_eq_zero hd) (by omega)

/-- Settles O10: between the borders lie whole rows of lines (WF2) and whole columns of pixels (WF1). -/
theorem activeLinesAndPixelsLieInTheBuffer : Obligations.ActiveLinesAndPixelsLieInTheBuffer := by
  intro c g line row sub p hw hg _ hc
  obtain ⟨⟨⟨hgw, -⟩, ⟨hgh, -⟩, -⟩, -, -, -, hinsts⟩ := hw
  obtain ⟨⟨-, hcols⟩, ⟨-, hrows⟩, -⟩ := hinsts g hg
  obtain ⟨⟨htop, hbottom⟩, rfl, rfl⟩ := (classify_eq_active_iff ..).1 hc
  exact ⟨sub_div_lt_of_between_margins hrows htop hbottom, Nat.mod_lt _ hgh,
    fun hleft hright => ⟨sub_div_lt_of_between_margins hcols hleft hright, Nat.mod_lt _ hgw⟩⟩

end Sys2Proof.Machine
end

section
/-! PROOFS. RASTERIZE (41_rasterize.md R97 to R101, R104, R108, R109, R111): what it answers for a line not owned and for
an owned one, what its response depends on, and the picture of a cleared screen. -/

namespace Sys2Proof.Machine

/-! ## The response -/

/-- RASTERIZE of an existing instance appends that instance's response and changes nothing else (41_rasterize.md R96,
R108). -/
theorem exec_rasterize_of_response (s : State) (inst : BitVec 4) (line : Line) (ratio : Byte) (g : InstCfg)
    (scr : Screen) (r : Response) (ha : s.active = .raster) (hi : s.instAt inst.toNat = some (g, scr))
    (hr : rasterResponse s.cfg g scr s.fc line ratio = some r) :
    exec (.rasterize inst line ratio) s = .next { s with responses := s.responses ++ [r] } := by
  simp only [exec, execRasterize, ha, hi, hr]

/-- A next state of RASTERIZE comes from the response of the named instance. -/
theorem exec_rasterize_next (s t : State) (inst : BitVec 4) (line : Line) (ratio : Byte)
    (h : exec (.rasterize inst line ratio) s = .next t) :
    s.active = .raster ∧ ∃ g scr r, s.instAt inst.toNat = some (g, scr) ∧
      rasterResponse s.cfg g scr s.fc line ratio = some r ∧ t = { s with responses := s.responses ++ [r] } := by
  obtain ⟨ha, ⟨_, _, _, g, scr, r, hins, hi, hr, ht⟩ | ⟨hins, -⟩⟩ := exec_raster_next s t _ rfl h
  · cases hins
    exact ⟨ha, g, scr, r, hi, hr, ht⟩
  · cases hins

/-- A line outside the band has the blank response (41_rasterize.md R97). -/
theorem rasterResponse_not_owned (c : Config) (g : InstCfg) (scr : Screen) (fc : BitVec 32) (line : Line) (ratio : Byte)
    (h : ¬(g.start ≤ line.toNat ∧ line.toNat < g.start + g.height)) :
    rasterResponse c g scr fc line ratio = some (blankResponse ratio) := by
  rw [← owned_iff] at h
  rw [rasterResponse, if_neg h]

/-- Settles O12: the response of such a line is the blank one, in every state. -/
theorem rasterizeOfALineNotOwnedIsBlank : Obligations.RasterizeOfALineNotOwnedIsBlank := by
  intro s inst line ratio g scr ha hi hline
  have hr := rasterResponse_not_owned s.cfg g scr s.fc line ratio hline
  exact ⟨_, exec_rasterize_of_response s inst line ratio g scr _ ha hi hr, rfl, rfl, rfl, repeatOf_toNat ratio, rfl⟩

/-- RATIO enters the response as its REPEAT field only (41_rasterize.md R98). -/
theorem rasterResponse_ratio (c : Config) (g : InstCfg) (scr : Screen) (fc : BitVec 32) (line : Line)
    (ratio ratio' : Byte) :
    rasterResponse c g scr fc line ratio' =
      (rasterResponse c g scr fc line ratio).map fun r => { r with info := { r.info with rep := repeatOf ratio' } } := by
  unfold rasterResponse
  split
  · cases linePixels c g scr fc (classify c g (line.toNat - g.start)) <;> rfl
  · rfl

/-- Every response has REPEAT max(RATIO, 1) and START_OFFSET 0 (41_rasterize.md R98). -/
theorem rasterResponse_metadata (c : Config) (g : InstCfg) (scr : Screen) (fc : BitVec 32) (line : Line) (ratio : Byte)
    (r : Response) (h : rasterResponse c g scr fc line ratio = some r) :
    r.info.rep.toNat = max ratio.toNat 1 ∧ r.info.startOffset = 0 := by
  unfold rasterResponse at h
  split at h
  · split at h
    · cases h
    · cases h
      exact ⟨repeatOf_toNat ratio, rfl⟩
  · cases h
    exact ⟨repeatOf_toNat ratio, rfl⟩

/-- Settles O21: the response for another RATIO is the same response with another REPEAT. -/
theorem ratioSetsRepeatAndNoPixel : Obligations.RatioSetsRepeatAndNoPixel := by
  intro s t inst line ratio ratio' h
  obtain ⟨ha, g, scr, r, hi, hr, rfl⟩ := exec_rasterize_next s t inst line ratio h
  have hr' := rasterResponse_ratio s.cfg g scr s.fc line ratio ratio'
  rw [hr, Option.map_some] at hr'
  obtain ⟨hrep, hoff⟩ := rasterResponse_metadata _ _ _ _ _ _ _ hr
  exact ⟨r, _, rfl, exec_rasterize_of_response s inst line ratio' g scr _ ha hi hr', hrep, repeatOf_toNat ratio', hoff,
    hoff, rfl, rfl, rfl⟩

/-- The response reads neither the default attribute nor what the command port holds (41_rasterize.md R108). -/
theorem rasterResponse_congr (c : Config) (g : InstCfg) (scr scr' : Screen) (fc : BitVec 32) (line : Line) (ratio : Byte)
    (hchars : scr.chars = scr'.chars) (hattrs : scr.attrs = scr'.attrs) (hx : scr.curx = scr'.curx)
    (hy : scr.cury = scr'.cury) (hvis : scr.curvis = scr'.curvis) (hfont : scr.fontsel = scr'.fontsel) :
    rasterResponse c g scr fc line ratio = rasterResponse c g scr' fc line ratio := by
  have hscr : scr' = { scr with defattr := scr'.defattr, rx := scr'.rx, busy := scr'.busy } := by
    rw [hchars, hattrs, hx, hy, hvis, hfont]
  rw [hscr]
  rfl

/-- Settles O20: both states give their named instance the same response. -/
theorem responseDependsOnNothingElse : Obligations.ResponseDependsOnNothingElse := by
  intro s s' t inst line ratio g scr scr' hcfg hfc ha ha' hi hi' hchars hattrs hx hy hvis hfont h
  obtain ⟨-, g₁, scr₁, r, hi₁, hr, rfl⟩ := exec_rasterize_next s t inst line ratio h
  rw [hi] at hi₁
  cases hi₁
  rw [rasterResponse_congr _ g scr scr' _ line ratio hchars hattrs hx hy hvis hfont, hcfg, hfc] at hr
  exact ⟨r, rfl, exec_rasterize_of_response s' inst line ratio g scr' r ha' hi' hr⟩

/-! ## Border lines -/

/-- A line of the top or bottom border band shows the border alone, whatever the font selection (41_rasterize.md
R100). -/
theorem linePixels_border (c : Config) (g : InstCfg) (scr : Screen) (fc : BitVec 32) (l : Nat)
    (h : l < g.vb ∨ g.height - g.vb ≤ l) :
    linePixels c g scr fc (classify c g l) = some (List.replicate g.hres g.borderPixel) := by
  unfold classify
  split
  · rfl
  · rw [if_pos (h.resolve_left ‹_›)]
    rfl

/-- Settles O14: no state is asked for more than that the instance exists. -/
theorem verticalBorderLineIsAllBorderPixels : Obligations.VerticalBorderLineIsAllBorderPixels := by
  intro s inst line ratio g scr ha hi hlo hhi hborder
  exact ⟨_, exec_rasterize_owned s inst line ratio g scr _ ha hi hlo hhi (linePixels_border _ _ _ _ _ hborder), rfl⟩

/-! ## The pixels of an owned line -/

/-- Pixel p of local line l lies between the vertical and between the horizontal borders. -/
abbrev InActiveArea (g : InstCfg) (l p : Nat) : Prop :=
  (g.vb ≤ l ∧ l < g.height - g.vb) ∧ g.hb ≤ p ∧ p < g.hres - g.hb

/-- Pixel p of local line l of an owned line, font f selected: the mux in the active area, the border around it. -/
def linePixel (c : Config) (g : InstCfg) (scr : Screen) (fc : BitVec 32) (f : Font) (l p : Nat) : Byte :=
  if InActiveArea g l p then activePixel c g scr fc f ((l - g.vb) / c.gh) ((l - g.vb) % c.gh) p else g.borderPixel

/-- In a horizontal border the mux gives the border (41_rasterize.md R101). -/
theorem activePixel_border (c : Config) (g : InstCfg) (scr : Screen) (fc : BitVec 32) (f : Font) (row sub p : Nat)
    (h : ¬(g.hb ≤ p ∧ p < g.hres - g.hb)) : activePixel c g scr fc f row sub p = g.borderPixel := by
  rw [activePixel, if_pos (by omega)]

/-- `linePixel` is what the model answers for each pixel of an owned line. -/
theorem linePixels_eq_map_linePixel (c : Config) (g : InstCfg) (scr : Screen) (fc : BitVec 32) (f : Font) (l : Nat)
    (hf : c.fonts[scr.fontsel.toNat]? = some f) :
    linePixels c g scr fc (classify c g l) = some ((List.range g.hres).map (linePixel c g scr fc f l)) := by
  by_cases hl : g.vb ≤ l ∧ l < g.height - g.vb
  · rw [classify_active c g l hl.1 hl.2, linePixels_active c g scr fc _ _ f hf]
    congr 2
    funext p
    by_cases hp : g.hb ≤ p ∧ p < g.hres - g.hb
    · rw [linePixel, if_pos ⟨hl, hp⟩]
    · rw [linePixel, if_neg fun h => hp h.2, activePixel_border _ _ _ _ _ _ _ _ hp]
  · have hborder : linePixel c g scr fc f l = fun _ => g.borderPixel :=
      funext fun p => if_neg fun h : InActiveArea g l p => hl h.1
    rw [linePixels_border c g scr fc l (by omega), hborder, List.map_const', List.length_range]

/-- The response for an owned line, font f selected. -/
def ownedResponse (c : Config) (g : InstCfg) (scr : Screen) (fc : BitVec 32) (f : Font) (line : Line) (ratio : Byte) :
    Response :=
  { info := { owned := true, rep := repeatOf ratio, pixelCount := BitVec.ofNat 16 g.hres, startOffset := 0 },
    pixels := (List.range g.hres).map (linePixel c g scr fc f (line.toNat - g.start)) }

/-- RASTERIZE of an owned line appends `ownedResponse` (41_rasterize.md R96). -/
theorem exec_rasterize_eq_ownedResponse (s : State) (inst : BitVec 4) (line : Line) (ratio : Byte) (g : InstCfg)
    (scr : Screen) (f : Font) (ha : s.active = .raster) (hi : s.instAt inst.toNat = some (g, scr))
    (hf : s.cfg.fonts[scr.fontsel.toNat]? = some f) (hlo : g.start ≤ line.toNat)
    (hhi : line.toNat < g.start + g.height) :
    exec (.rasterize inst line ratio) s =
      .next { s with responses := s.responses ++ [ownedResponse s.cfg g scr s.fc f line ratio] } :=
  exec_rasterize_owned s inst line ratio g scr _ ha hi hlo hhi (linePixels_eq_map_linePixel _ _ _ _ f _ hf)

theorem ownedResponse_pixel (c : Config) (g : InstCfg) (scr : Screen) (fc : BitVec 32) (f : Font) (line : Line)
    (ratio : Byte) (p : Nat) (hp : p < g.hres) :
    (ownedResponse c g scr fc f line ratio).pixels[p]? = some (linePixel c g scr fc f (line.toNat - g.start) p) := by
  simp [ownedResponse, hp]

/-- Settles O13: the selected font exists by the invariant, and HRES fits the 16 bits of PIXEL_COUNT. -/
theorem rasterizeOfAnOwnedLineEmitsHresPixels : Obligations.RasterizeOfAnOwnedLineEmitsHresPixels := by
  intro s inst line ratio g scr hinv ha hi hlo hhi
  obtain ⟨f, hf⟩ := State.inv_font s _ g scr hinv hi
  obtain ⟨-, -, -, -, -, -, -, -, -, hres⟩ := State.instAt_wf s _ g scr hinv.1 hi
  have hcount : (BitVec.ofNat 16 g.hres).toNat = g.hres := by
    rw [BitVec.toNat_ofNat, Nat.mod_eq_of_lt (by omega)]
  exact ⟨_, exec_rasterize_eq_ownedResponse s inst line ratio g scr f ha hi hf hlo hhi, rfl, hcount, rfl,
    repeatOf_toNat ratio, by simp [ownedResponse]⟩

/-- Settles O15: such a pixel is outside the active area. -/
theorem horizontalBorderPixelsOfAnActiveLine : Obligations.HorizontalBorderPixelsOfAnActiveLine := by
  intro s inst line ratio g scr p hinv ha hi hlo htop hbottom hp hborder
  obtain ⟨f, hf⟩ := State.inv_font s _ g scr hinv hi
  refine ⟨_, exec_rasterize_eq_ownedResponse s inst line ratio g scr f ha hi hf hlo (by omega), ?_⟩
  rw [ownedResponse_pixel _ _ _ _ _ _ _ p hp, linePixel, if_neg (by omega)]

/-! ## Glyph entries -/

/-- Settles O17: the entry is below COUNT, and the storage holds GH bytes for each entry (DataFits). -/
theorem codesOutsideTheFontUseEntryZero : Obligations.CodesOutsideTheFontUseEntryZero := by
  intro c f ch hw hf
  obtain ⟨-, -, -, hfonts, -⟩ := hw
  obtain ⟨hwf, hdata⟩ := hfonts f hf
  have hlt := glyphEntry_lt f ch hwf
  refine ⟨fun h1 h2 => if_pos ⟨h1, h2⟩, fun h => if_neg h, hlt, fun sub hsub => ?_⟩
  calc glyphEntry f ch * c.gh + sub < (glyphEntry f ch + 1) * c.gh := by rw [Nat.add_mul, Nat.one_mul]; omega
    _ ≤ f.count * c.gh := Nat.mul_le_mul_right _ hlt
    _ = f.data.length := hdata.symm

/-! ## The cursor -/

/-- Exchanging two colours on a condition is choosing by an exclusive or. -/
theorem exchange_eq_xor (exchanged bit : Bool) (fg bg : Byte) :
    (if exchanged then (if bit then bg else fg) else (if bit then fg else bg)) =
      if exchanged ^^ bit then fg else bg := by
  cases exchanged
  · cases bit <;> rfl
  · cases bit <;> rfl

/-- Inside the horizontal borders the mux shows the foreground where the glyph bit and the cursor test differ, and else
the background (41_rasterize.md R105). -/
theorem activePixel_inside (c : Config) (g : InstCfg) (scr : Screen) (fc : BitVec 32) (f : Font) (row sub p : Nat)
    (hleft : g.hb ≤ p) (hright : p < g.hres - g.hb) :
    activePixel c g scr fc f row sub p =
      if cursorHere c scr fc row ((p - g.hb) / c.gw) ^^
        glyphBit c f (glyphEntry f (scr.chars.read (cellIndex c g row ((p - g.hb) / c.gw)))) sub ((p - g.hb) % c.gw)
      then attrFgOf c (scr.attrs.read (cellIndex c g row ((p - g.hb) / c.gw)))
      else attrBgOf c (scr.attrs.read (cellIndex c g row ((p - g.hb) / c.gw))) := by
  rw [activePixel, if_neg (by omega)]
  exact exchange_eq_xor ..

/-- CursorHere, spelled out (41_rasterize.md R107). -/
theorem cursorHere_iff (c : Config) (scr : Screen) (fc : BitVec 32) (row col : Nat) :
    cursorHere c scr fc row col = true ↔
      (row = scr.cury.toNat ∧ col = scr.curx.toNat) ∧ scr.curvis = true ∧ blinkOn c fc = true := by
  simp only [cursorHere, Bool.and_eq_true, decide_eq_true_eq]
  constructor
  · rintro ⟨⟨⟨hvis, rfl⟩, rfl⟩, hon⟩
    exact ⟨⟨rfl, rfl⟩, hvis, hon⟩
  · rintro ⟨⟨rfl, rfl⟩, hvis, hon⟩
    exact ⟨⟨⟨hvis, rfl⟩, rfl⟩, hon⟩

@[simp] theorem cursorHere_hidden (c : Config) (scr : Screen) (fc : BitVec 32) (row col : Nat) :
    cursorHere c { scr with curvis := false } fc row col = false := by
  simp [cursorHere]

/-- Hiding the cursor changes no pixel whose cell does not show it. -/
theorem activePixel_hidden_of_not_cursorHere (c : Config) (g : InstCfg) (scr : Screen) (fc : BitVec 32) (f : Font)
    (row sub p : Nat) (hleft : g.hb ≤ p) (hright : p < g.hres - g.hb)
    (hcur : cursorHere c scr fc row ((p - g.hb) / c.gw) = false) :
    activePixel c g { scr with curvis := false } fc f row sub p = activePixel c g scr fc f row sub p := by
  rw [activePixel_inside _ _ _ _ _ _ _ _ hleft hright, activePixel_inside _ _ _ _ _ _ _ _ hleft hright, hcur,
    cursorHere_hidden]

/-- Hiding the cursor exchanges foreground and background on the cell that shows it (41_rasterize.md R107). -/
theorem activePixel_hidden_of_cursorHere (c : Config) (g : InstCfg) (scr : Screen) (fc : BitVec 32) (f : Font)
    (row sub p : Nat) (att : Byte) (hleft : g.hb ≤ p) (hright : p < g.hres - g.hb)
    (hcur : cursorHere c scr fc row ((p - g.hb) / c.gw) = true)
    (hatt : scr.attrs.read (cellIndex c g row ((p - g.hb) / c.gw)) = att) :
    (activePixel c g scr fc f row sub p = attrFgOf c att ∧
      activePixel c g { scr with curvis := false } fc f row sub p = attrBgOf c att) ∨
    (activePixel c g scr fc f row sub p = attrBgOf c att ∧
      activePixel c g { scr with curvis := false } fc f row sub p = attrFgOf c att) := by
  rw [activePixel_inside _ _ _ _ _ _ _ _ hleft hright, activePixel_inside _ _ _ _ _ _ _ _ hleft hright, hcur,
    cursorHere_hidden, hatt]
  cases glyphBit c f (glyphEntry f (scr.chars.read (cellIndex c g row ((p - g.hb) / c.gw)))) sub ((p - g.hb) % c.gw)
  · exact .inl ⟨rfl, rfl⟩
  · exact .inr ⟨rfl, rfl⟩

/-- Settles O19: a pixel of the active area is on the cursor's cell, with the cursor visible and ON, exactly when the mux
finds the cursor there; a border pixel never is. -/
theorem cursorInversionAffectsOnlyTheCursorCell : Obligations.CursorInversionAffectsOnlyTheCursorCell := by
  intro s inst line ratio g scr hinv ha hi hlo hhi
  obtain ⟨f, hf⟩ := State.inv_font s _ g scr hinv hi
  refine ⟨_, _, exec_rasterize_eq_ownedResponse s inst line ratio g scr f ha hi hf hlo hhi,
    exec_rasterize_eq_ownedResponse (s.setScreen inst.toNat { scr with curvis := false }) inst line ratio g _ f ha
      (State.instAt_setScreen_self s _ scr g _ hi) hf hlo hhi, fun p hp => ?_⟩
  simp only [ownedResponse_pixel _ _ _ _ _ _ _ p hp, Option.some_inj, State.setScreen_cfg, State.setScreen_fc]
  refine ⟨fun hoff => ?_, ?_⟩
  · by_cases harea : InActiveArea g (line.toNat - g.start) p
    · simp only [linePixel, if_pos harea]
      obtain ⟨⟨htop, hbottom⟩, hleft, hright⟩ := harea
      refine (activePixel_hidden_of_not_cursorHere _ _ _ _ _ _ _ _ hleft hright ?_).symm
      refine Bool.eq_false_iff.2 fun hcur => ?_
      obtain ⟨⟨hrow, hcol⟩, hshown⟩ := (cursorHere_iff ..).1 hcur
      exact hoff ⟨⟨htop, hbottom, hrow, hleft, hright, hcol⟩, hshown⟩
    · simp only [linePixel, if_neg harea]
  · rintro ⟨⟨htop, hbottom, hrow, hleft, hright, hcol⟩, hshown⟩
    have harea : InActiveArea g (line.toNat - g.start) p := ⟨⟨htop, hbottom⟩, hleft, hright⟩
    simp only [linePixel, if_pos harea]
    exact activePixel_hidden_of_cursorHere _ _ _ _ _ _ _ _ _ hleft hright
      ((cursorHere_iff ..).2 ⟨⟨hrow, hcol⟩, hshown⟩) (by rw [hrow, hcol]; rfl)

/-! ## The effect of CLEAR -/

/-- The plane with one byte written at each of some addresses. -/
def Memory.fill (m : Memory) (addrs : List Nat) (v : Byte) : Memory := addrs.foldl (fun m a => m.write a v) m

/-- A filled address reads as the byte, every other one as before. -/
theorem Memory.read_fill (m : Memory) (addrs : List Nat) (v : Byte) (b : Nat) (h : m.Wf) :
    (m.fill addrs v).read b = if b ∈ addrs then v else m.read b := by
  induction addrs generalizing m with
  | nil => rfl
  | cons a rest ih =>
    have hfill : m.fill (a :: rest) v = (m.write a v).fill rest v := rfl
    rw [hfill, ih _ (Memory.wf_write m a v h), Memory.read_write m a b v h]
    by_cases hb : b = a <;> simp [hb]

/-- The cells of an instance's buffer, row by row, as (row, column). -/
def bufferCells (c : Config) (g : InstCfg) : List (Nat × Nat) :=
  (List.range (c.rows g)).flatMap fun r => (List.range (c.cols g)).map (Prod.mk r)

theorem mem_bufferCells (c : Config) (g : InstCfg) (r k : Nat) :
    (r, k) ∈ bufferCells c g ↔ r < c.rows g ∧ k < c.cols g := by
  simp [bufferCells]

/-- The linear indexes of some cells. -/
def cellIndexes (c : Config) (g : InstCfg) (cells : List (Nat × Nat)) : List Nat :=
  cells.map fun cell => cellIndex c g cell.1 cell.2

/-- The micro-steps of CLEAR go over the cells of the buffer (42_console.md R114). -/
theorem clearMicros_eq (c : Config) (g : InstCfg) :
    clearMicros c g = (bufferCells c g).map (fun cell => .clearCell cell.1 cell.2) ++ [.home] := by
  unfold clearMicros bufferCells
  simp only [List.map_flatMap, List.map_map]
  rfl

/-- Clearing some cells of the buffer fills both planes at their indexes. -/
theorem performAll_clearCells (c : Config) (g : InstCfg) (cells : List (Nat × Nat)) (scr : Screen)
    (h : ∀ cell ∈ cells, cell.1 < c.rows g ∧ cell.2 < c.cols g) :
    performAll c g (cells.map fun cell => .clearCell cell.1 cell.2) scr =
      some { scr with
        chars := scr.chars.fill (cellIndexes c g cells) spaceCode
        attrs := scr.attrs.fill (cellIndexes c g cells) scr.defattr } := by
  induction cells generalizing scr with
  | nil => rfl
  | cons cell rest ih =>
    obtain ⟨hr, hk⟩ := h cell (by simp)
    have hperform := (cellWrite_eq_some c g scr _ cell.1 cell.2 spaceCode scr.defattr).2 ⟨hr, hk, rfl⟩
    rw [List.map_cons, performAll, perform, hperform]
    exact ih _ fun cell' hmem => h cell' (by simp [hmem])

/-- CLEAR fills the buffer with spaces of the default attribute and puts the cursor at (0, 0) (42_console.md R114). -/
theorem performAll_clear (c : Config) (g : InstCfg) (scr : Screen) :
    performAll c g (microsOf c g .clear) scr =
      some { scr with
        chars := scr.chars.fill (cellIndexes c g (bufferCells c g)) spaceCode
        attrs := scr.attrs.fill (cellIndexes c g (bufferCells c g)) scr.defattr
        curx := 0
        cury := 0 } := by
  rw [microsOf, clearMicros_eq, performAll_append,
    performAll_clearCells c g _ scr fun cell hmem => (mem_bufferCells c g cell.1 cell.2).1 hmem]
  rfl

/-- A plane filled over the buffer reads as the byte on every cell. -/
theorem Memory.read_fill_buffer (c : Config) (g : InstCfg) (m : Memory) (v : Byte) (r k : Nat) (h : m.Wf)
    (hr : r < c.rows g) (hk : k < c.cols g) :
    (m.fill (cellIndexes c g (bufferCells c g)) v).read (cellIndex c g r k) = v := by
  rw [Memory.read_fill m _ v _ h, if_pos]
  exact List.mem_map.2 ⟨(r, k), (mem_bufferCells c g r k).2 ⟨hr, hk⟩, rfl⟩

/-! ## The picture of a cleared screen -/

/-- After CLEAR the cells of the buffer are spaces with the default attribute. -/
theorem cell_of_performAll_clear (c : Config) (g : InstCfg) (scr scr' : Screen) (r k : Nat) (hchars : scr.chars.Wf)
    (hattrs : scr.attrs.Wf) (h : performAll c g (microsOf c g .clear) scr = some scr') (hr : r < c.rows g)
    (hk : k < c.cols g) :
    scr'.chars.read (cellIndex c g r k) = spaceCode ∧ scr'.attrs.read (cellIndex c g r k) = scr.defattr := by
  rw [performAll_clear, Option.some_inj] at h
  subst h
  exact ⟨Memory.read_fill_buffer c g _ _ r k hchars hr hk, Memory.read_fill_buffer c g _ _ r k hattrs hr hk⟩

/-- A pixel whose glyph bit is not set and whose cell does not show the cursor is the cell's background
(41_rasterize.md R105). -/
theorem activePixel_background (c : Config) (g : InstCfg) (scr : Screen) (fc : BitVec 32) (f : Font) (row sub p : Nat)
    (hleft : g.hb ≤ p) (hright : p < g.hres - g.hb) (hcur : cursorHere c scr fc row ((p - g.hb) / c.gw) = false)
    (hbit : glyphBit c f (glyphEntry f (scr.chars.read (cellIndex c g row ((p - g.hb) / c.gw)))) sub
      ((p - g.hb) % c.gw) = false) :
    activePixel c g scr fc f row sub p = attrBgOf c (scr.attrs.read (cellIndex c g row ((p - g.hb) / c.gw))) := by
  rw [activePixel_inside _ _ _ _ _ _ _ _ hleft hright, hcur, hbit]
  rfl

/-- Settles O23: the cell of an active pixel lies in the buffer (O10), so after CLEAR it is a space with the default
attribute, and the mux shows its background. -/
theorem clearScreenRendersFlat : Obligations.ClearScreenRendersFlat := by
  intro s inst line ratio g scr scr' f p hinv ha hi hclear hf hspace hlo hhi hp
  refine ⟨_, exec_rasterize_eq_ownedResponse (s.setScreen inst.toNat scr') inst line ratio g scr' f ha
    (State.instAt_setScreen_self s _ scr g _ hi) hf hlo hhi, ?_⟩
  rw [ownedResponse_pixel _ _ _ _ _ _ _ p hp, Option.some_inj, Option.some_inj, linePixel]
  refine ⟨fun hborder => if_neg fun harea => hborder ?_, fun htop hbottom hleft hright hcur => ?_⟩
  · obtain ⟨⟨htop, hbottom⟩, hleft, hright⟩ := harea
    exact ⟨htop, hbottom, hleft, hright⟩
  · obtain ⟨-, -, ⟨hchars, -⟩, ⟨hattrs, -⟩, -⟩ := State.inv_instAt s _ g scr hinv hi
    have hg : g ∈ s.cfg.insts := (State.instAt_wf s _ g scr hinv.1 hi).1
    obtain ⟨hrow, hsub, hpixel⟩ := activeLinesAndPixelsLieInTheBuffer s.cfg g line.toNat _ _ p hinv.1 hg
      ((owned_iff ..).2 ⟨hlo, hhi⟩) (classify_active _ _ _ htop hbottom)
    obtain ⟨hcol, hx⟩ := hpixel hleft hright
    obtain ⟨hch, hatt⟩ := cell_of_performAll_clear s.cfg g scr scr' _ _ hchars hattrs hclear hrow hcol
    rw [if_pos ⟨⟨htop, hbottom⟩, hleft, hright⟩]
    refine (activePixel_background _ _ _ _ _ _ _ _ hleft hright hcur ?_).trans (congrArg _ hatt)
    exact (congrArg (fun ch => glyphBit s.cfg f (glyphEntry f ch) _ _) hch).trans (hspace _ _ hsub hx)

end Sys2Proof.Machine
end

section
/-! PROOFS. The console commands (42_console.md): one character, a text in closed form, the right-aligned text, and the
isolation of the instances. -/

namespace Sys2Proof.Machine

/-! ## One character -/

/-- The dimensions of an admitted instance are between 1 and 256 (00_scope.md R18, WF3). -/
theorem Config.dims_of_wf {c : Config} {g : InstCfg} (hw : c.Wf) (hg : g ∈ c.insts) :
    (1 ≤ c.cols g ∧ c.cols g ≤ 256) ∧ (1 ≤ c.rows g ∧ c.rows g ≤ 256) := by
  obtain ⟨-, -, -, -, hinsts⟩ := hw
  obtain ⟨-, -, hdims, -⟩ := hinsts g hg
  exact hdims

/-- A coordinate that stays below a dimension counts up without wrapping at 8 bits. -/
theorem toNat_succ_of_lt_dim {b : Byte} {n : Nat} (hn : n ≤ 256) (h : b.toNat + 1 < n) : (b + 1).toNat = b.toNat + 1 :=
  BitVec.toNat_add_of_lt (y := 1) (Nat.lt_of_lt_of_le h hn)

/-- Where the cursor goes after a character: to the next column, after the last one to the start of the next row, and
after the last row to (0, 0) (42_console.md R113). -/
theorem advanceCursor_cursor (c : Config) (g : InstCfg) (scr : Screen) (hc : c.cols g ≤ 256) (hr : c.rows g ≤ 256) :
    (scr.curx.toNat + 1 < c.cols g →
      (advanceCursor c g scr).curx.toNat = scr.curx.toNat + 1 ∧ (advanceCursor c g scr).cury = scr.cury) ∧
    (¬scr.curx.toNat + 1 < c.cols g → scr.cury.toNat + 1 < c.rows g →
      (advanceCursor c g scr).curx = 0 ∧ (advanceCursor c g scr).cury.toNat = scr.cury.toNat + 1) ∧
    (¬scr.curx.toNat + 1 < c.cols g → ¬scr.cury.toNat + 1 < c.rows g →
      (advanceCursor c g scr).curx = 0 ∧ (advanceCursor c g scr).cury = 0) := by
  refine ⟨fun hx => ?_, fun hx hy => ?_, fun hx hy => ?_⟩
  · rw [advanceCursor, if_pos hx]
    exact ⟨toNat_succ_of_lt_dim hc hx, rfl⟩
  · rw [advanceCursor, if_neg hx, if_pos hy]
    exact ⟨rfl, toNat_succ_of_lt_dim hr hy⟩
  · rw [advanceCursor, if_neg hx, if_neg hy]
    exact ⟨rfl, rfl⟩

/-- Settles O36: a write to both planes at the cursor's cell, then one of the three ways the cursor advances. -/
theorem putCharWritesTheCellAndAdvancesTheCursor : Obligations.PutCharWritesTheCellAndAdvancesTheCursor := by
  intro c g scr ch hw hg hcur hchars hattrs
  obtain ⟨⟨-, hcols⟩, -, hrows⟩ := Config.dims_of_wf hw hg
  have hmoves := advanceCursor_cursor c g { scr with
    chars := scr.chars.write (cellIndex c g scr.cury.toNat scr.curx.toNat) ch
    attrs := scr.attrs.write (cellIndex c g scr.cury.toNat scr.curx.toNat) scr.defattr } hcols hrows
  have hput := (putChar_eq c g scr ch hcur).trans (congrArg some (advanceCursor_eq c g _))
  refine ⟨_, _, _, _, hput, ?_, ?_, fun a ha => ⟨?_, ?_⟩, hmoves⟩
  · exact Memory.read_write_same _ _ ch hchars
  · exact Memory.read_write_same _ _ scr.defattr hattrs
  · exact Memory.read_write_other _ _ a ch ha
  · exact Memory.read_write_other _ _ a scr.defattr ha

/-! ## A text in closed form -/

/-- The plane with some bytes written one after the other from linear position k on, positions counted modulo the number
of cells (42_console.md R123). -/
def Memory.writeRing (m : Memory) (cells k : Nat) : List Byte → Memory
  | [] => m
  | v :: vs => (m.write (k % cells) v).writeRing cells (k + 1) vs

/-- An address that no byte is written to reads as before. -/
theorem Memory.read_writeRing_other (m : Memory) (cells k a : Nat) (vs : List Byte)
    (h : ∀ j, j < vs.length → (k + j) % cells ≠ a) : (m.writeRing cells k vs).read a = m.read a := by
  induction vs generalizing m k with
  | nil => rfl
  | cons v vs ih =>
    have hrest (j : Nat) (hj : j < vs.length) : (k + 1 + j) % cells ≠ a := by
      rw [Nat.add_right_comm]
      exact h (j + 1) (Nat.succ_lt_succ hj)
    rw [Memory.writeRing, ih _ _ hrest]
    exact Memory.read_write_other m _ a v (h 0 (Nat.succ_pos _)).symm

/-- The last byte written to an address is the one it reads as. -/
theorem Memory.read_writeRing_last (m : Memory) (cells k j : Nat) (vs : List Byte) (v : Byte) (hm : m.Wf)
    (hj : vs[j]? = some v) (hlast : ∀ j', j < j' → j' < vs.length → (k + j') % cells ≠ (k + j) % cells) :
    (m.writeRing cells k vs).read ((k + j) % cells) = v := by
  induction vs generalizing m k j with
  | nil => simp at hj
  | cons u us ih =>
    have hshift (j' : Nat) : k + 1 + j' = k + (j' + 1) := Nat.add_right_comm k 1 j'
    have hlater (j' : Nat) (hj' : j < j' + 1) (hlt : j' < us.length) : (k + 1 + j') % cells ≠ (k + j) % cells := by
      rw [hshift]
      exact hlast (j' + 1) hj' (Nat.succ_lt_succ hlt)
    rw [Memory.writeRing]
    cases j with
    | zero =>
      rw [Memory.read_writeRing_other _ _ _ _ _ fun j' hlt => hlater j' (Nat.succ_pos j') hlt]
      obtain rfl : u = v := by simpa using hj
      exact Memory.read_write_same m _ u hm
    | succ i =>
      rw [← hshift i] at hlater ⊢
      exact ih _ (k + 1) i (Memory.wf_write m _ u hm) hj fun j' hj' => hlater j' (Nat.succ_lt_succ hj')

/-- After a nonempty text its last byte stands where the last position is. -/
theorem Memory.read_writeRing_end (m : Memory) (cells k : Nat) (vs : List Byte) (v : Byte) (hm : m.Wf)
    (hv : vs.getLast? = some v) : (m.writeRing cells k vs).read ((k + (vs.length - 1)) % cells) = v := by
  rw [List.getLast?_eq_getElem?] at hv
  exact Memory.read_writeRing_last m cells k _ vs v hm hv (by omega)

/-- The PutChars of a text, from linear position k on: the characters go to one plane, the default attribute to the
other, and the cursor ends behind the last character (42_console.md R123). -/
theorem performAll_printMicros (c : Config) (g : InstCfg) (scr : Screen) (t : List Byte) (k : Nat)
    (hcols : c.cols g ≤ 256) (hrows : c.rows g ≤ 256) (hcur : CursorOk c g scr)
    (hk : scr.cury.toNat * c.cols g + scr.curx.toNat = k % (c.rows g * c.cols g)) :
    ∃ cx cy : Byte,
      performAll c g (printMicros t) scr = some { scr with
        chars := scr.chars.writeRing (c.rows g * c.cols g) k t
        attrs := scr.attrs.writeRing (c.rows g * c.cols g) k (t.map fun _ => scr.defattr)
        curx := cx
        cury := cy } ∧
      cx.toNat < c.cols g ∧ cy.toNat * c.cols g + cx.toNat = (k + t.length) % (c.rows g * c.cols g) := by
  induction t generalizing scr k with
  | nil => exact ⟨scr.curx, scr.cury, rfl, hcur.1, hk⟩
  | cons ch t ih =>
    obtain ⟨cx, cy, hput, hx, hy, hlin⟩ := putChar_spec c g scr ch hcols hrows hcur
    rw [hk] at hput
    rw [hk, Nat.mod_add_mod] at hlin
    obtain ⟨cx', cy', hrest, hx', hlin'⟩ := ih { scr with
      chars := scr.chars.write (k % (c.rows g * c.cols g)) ch
      attrs := scr.attrs.write (k % (c.rows g * c.cols g)) scr.defattr
      curx := cx
      cury := cy } (k + 1) ⟨hx, hy⟩ hlin
    refine ⟨cx', cy', ?_, hx', ?_⟩
    · have hmicros : printMicros (ch :: t) = .putChar ch :: printMicros t := rfl
      rw [hmicros, performAll, perform, hput]
      exact hrest
    · rw [hlin', List.length_cons, Nat.add_right_comm, Nat.add_assoc]

/-- The row and the column of a linear position. -/
theorem div_mod_of_linear {row col cols n : Nat} (hcol : col < cols) (h : row * cols + col = n) :
    row = n / cols ∧ col = n % cols := by
  have hunique : n / cols = row ∧ n % cols = col :=
    (Nat.div_mod_unique (Nat.zero_lt_of_lt hcol)).2 ⟨by rw [← h]; ring, hcol⟩
  exact hunique.imp Eq.symm Eq.symm

/-- Settles O38: the two planes are written in a ring from the cursor's linear position on. -/
theorem printInClosedForm : Obligations.PrintInClosedForm := by
  intro c g scr t hw hg hcur hchars hattrs cells k0
  obtain ⟨⟨-, hcols⟩, -, hrows⟩ := Config.dims_of_wf hw hg
  have hk0 : k0 % cells = k0 := Nat.mod_eq_of_lt (cellIndex_lt c g _ _ hcur.2 hcur.1)
  obtain ⟨cx, cy, hall, hx, hlin⟩ := performAll_printMicros c g scr t k0 hcols hrows hcur hk0.symm
  refine ⟨_, _, cx, cy, hall, fun j ch hj hlast => ⟨?_, ?_⟩, fun a ha => ⟨?_, ?_⟩, div_mod_of_linear hx hlin⟩
  · exact Memory.read_writeRing_last _ _ _ j t ch hchars hj hlast
  · exact Memory.read_writeRing_last _ _ _ j _ _ hattrs (by rw [List.getElem?_map, hj, Option.map_some])
      (by rwa [List.length_map])
  · exact Memory.read_writeRing_other _ _ _ a t ha
  · exact Memory.read_writeRing_other _ _ _ a _ (by rwa [List.length_map])

/-! ## The right-aligned text -/

/-- PRINT_AT starts its text at the clamped position (42_console.md R112, R122). -/
theorem performAll_printAtMicros (c : Config) (g : InstCfg) (scr : Screen) (x y : Nat) (t : List Byte) (hw : c.Wf)
    (hg : g ∈ c.insts) :
    ∃ cx cy : Byte,
      performAll c g (printAtMicros x y t) scr = some { scr with
        chars := scr.chars.writeRing (c.rows g * c.cols g) (clampY c g y * c.cols g + clampX c g x) t
        attrs := scr.attrs.writeRing (c.rows g * c.cols g) (clampY c g y * c.cols g + clampX c g x)
          (t.map fun _ => scr.defattr)
        curx := cx
        cury := cy } ∧
      cx.toNat < c.cols g ∧
      cy.toNat * c.cols g + cx.toNat =
        (clampY c g y * c.cols g + clampX c g x + t.length) % (c.rows g * c.cols g) := by
  obtain ⟨⟨hcols1, hcols⟩, hrows1, hrows⟩ := Config.dims_of_wf hw hg
  obtain ⟨hx, hy⟩ := setCursorClamped_toNat c g scr x y hcols hrows
  have hcur : CursorOk c g (setCursorClamped c g scr x y) := ⟨by rw [hx]; omega, by rw [hy]; omega⟩
  refine performAll_printMicros c g (setCursorClamped c g scr x y) t _ hcols hrows hcur ?_
  rw [hx, hy]
  exact (Nat.mod_eq_of_lt (cellIndex_lt c g _ _ (hy ▸ hcur.2) (hx ▸ hcur.1))).symm

/-- PRINT_RIGHT is PRINT_AT of the text truncated from the left, from column COLS - M on (42_console.md R124). -/
theorem printRightMicros_eq (c : Config) (g : InstCfg) (y : Nat) (t : List Byte) :
    printRightMicros c g y t =
      printAtMicros (c.cols g - min t.length (c.cols g)) y (t.drop (t.length - c.cols g)) := by
  obtain ⟨hlen, htext, -⟩ := rightText_spec (c.cols g) t
  rw [printRightMicros, rightStart, hlen, htext]

/-- From column COLS - M on, the last of M characters of the row falls into its last column, inside the buffer
(42_console.md R125). -/
theorem printRight_last_position (c : Config) (g : InstCfg) (y len : Nat) (hcols : 1 ≤ c.cols g) (hrows : 1 ≤ c.rows g)
    (hlen : 0 < len) :
    (clampY c g y * c.cols g + clampX c g (c.cols g - min len (c.cols g)) + (len - (len - c.cols g) - 1)) %
      (c.rows g * c.cols g) = clampY c g y * c.cols g + (c.cols g - 1) := by
  have hcol : clampX c g (c.cols g - min len (c.cols g)) + (len - (len - c.cols g) - 1) = c.cols g - 1 := by
    rw [clampX]; omega
  rw [Nat.add_assoc, hcol]
  exact Nat.mod_eq_of_lt (cellIndex_lt c g _ _ (by rw [clampY]; omega) (by omega))

/-- A plane written from column COLS - M on with M bytes reads as the last of them in the last column. -/
theorem Memory.read_writeRing_printRight (c : Config) (g : InstCfg) (m : Memory) (y len : Nat) (vs : List Byte) (v : Byte)
    (hm : m.Wf) (hcols : 1 ≤ c.cols g) (hrows : 1 ≤ c.rows g) (hpos : 0 < len)
    (hlen : vs.length = len - (len - c.cols g)) (hv : vs.getLast? = some v) :
    (m.writeRing (c.rows g * c.cols g) (clampY c g y * c.cols g + clampX c g (c.cols g - min len (c.cols g))) vs).read
      (clampY c g y * c.cols g + (c.cols g - 1)) = v := by
  rw [← printRight_last_position c g y len hcols hrows hpos, ← hlen]
  exact Memory.read_writeRing_end m _ _ vs v hm hv

/-- Settles O40: the text has at least one character and starts M columns before the end of its row, so the last of its
M characters, which no later one overwrites, falls into the last column. -/
theorem printRightEndsInTheLastColumn : Obligations.PrintRightEndsInTheLastColumn := by
  intro c g scr y t ch hw hg hchars hattrs hlast
  have hmicros := printRightMicros_eq c g y.toNat t
  refine ⟨congrArg (performAll c g · scr) hmicros, ?_⟩
  obtain ⟨⟨hcols, -⟩, hrows, -⟩ := Config.dims_of_wf hw hg
  have hpos : 0 < t.length := List.length_pos_of_ne_nil (by rintro rfl; cases hlast)
  have htext : (t.drop (t.length - c.cols g)).getLast? = some ch := by
    rw [List.getLast?_drop, if_neg (by omega), hlast]
  have hatts : ((t.drop (t.length - c.cols g)).map fun _ => scr.defattr).getLast? = some scr.defattr := by
    rw [List.getLast?_map, htext, Option.map_some]
  obtain ⟨cx, cy, hall, -⟩ := performAll_printAtMicros c g scr (c.cols g - min t.length (c.cols g)) y.toNat
    (t.drop (t.length - c.cols g)) hw hg
  have hlen := List.length_drop (i := t.length - c.cols g) (l := t)
  refine ⟨_, (congrArg (performAll c g · scr) hmicros).trans hall, ?_, ?_⟩
  · exact Memory.read_writeRing_printRight c g _ _ _ _ ch hchars hcols hrows hpos hlen htext
  · exact Memory.read_writeRing_printRight c g _ _ _ _ _ hattrs hcols hrows hpos (by rw [List.length_map, hlen]) hatts

/-! ## Instance isolation -/

/-- An instance is read from the configuration and from its own state alone. -/
theorem State.instAt_congr {s s' : State} {n : Nat} (hc : s'.cfg = s.cfg) (hs : s'.screens[n]? = s.screens[n]?) :
    s'.instAt n = s.instAt n := by
  rw [State.instAt, State.instAt, hc, hs]

/-- Micro-steps that run on an instance's state run in the same way in every state with the same configuration. -/
theorem State.runMicros_local (s t : State) (n : Nat) (g : InstCfg) (scr : Screen) (ms : List Micro)
    (h : s.runMicros n g scr ms = .next t) :
    ∃ scr', t = s.setScreen n scr' ∧
      ∀ s' : State, s'.cfg = s.cfg → s'.runMicros n g scr ms = .next (s'.setScreen n scr') := by
  rcases State.runMicros_next s t n g scr ms h with ⟨rfl, rfl⟩ | ⟨m, rest, scr', rfl, hp, rfl⟩
  · exact ⟨_, rfl, fun s' _ => rfl⟩
  · exact ⟨_, rfl, fun s' hc => by rw [State.runMicros, hc, hp]⟩

/-- Two lists of instances that agree at n agree there after the same replacement. -/
theorem getElem?_set_congr {l l' : List Screen} {n : Nat} (scr : Screen) (h : l'[n]? = l[n]?) :
    (l'.set n scr)[n]? = (l.set n scr)[n]? := by
  rw [List.getElem?_set_self', List.getElem?_set_self', h]

/-- A granted port with a command in progress performs its next micro-step (10_state.md R45). -/
theorem stepCommand_of_busy (s : State) (n : Nat) (g : InstCfg) (scr : Screen) (m : Micro) (ms : List Micro)
    (hi : s.instAt n = some (g, scr)) (hb : scr.busy = m :: ms) :
    stepCommand n s = s.runMicros n g scr (m :: ms) := by
  simp only [stepCommand, hi, hb]

/-- A granted port without a whole command does nothing (30_encoding.md R76). -/
theorem stepCommand_of_incomplete (s : State) (n : Nat) (g : InstCfg) (scr : Screen) (hi : s.instAt n = some (g, scr))
    (hb : scr.busy = []) (hd : decode s.cfg (.cmd n) scr.rx = .incomplete) : stepCommand n s = .next s := by
  simp only [stepCommand, hi, hb, hd]

/-- A granted port with a whole command takes it and runs its micro-steps (20_memory.md R57; log 6). -/
theorem stepCommand_of_instr (s : State) (n : Nat) (g : InstCfg) (scr : Screen) (i : Instr) (rest : List Word)
    (hi : s.instAt n = some (g, scr)) (hb : scr.busy = []) (hd : decode s.cfg (.cmd n) scr.rx = .instr i rest) :
    stepCommand n s =
      (s.takeCommand n scr rest).runMicros n g { scr with rx := rest } (microsOf s.cfg g i) := by
  obtain ⟨hr, hv⟩ := decode_cmd _ _ _ _ _ hd
  have hstep : stepCommand n s = exec i (s.takeCommand n scr rest) := by simp only [stepCommand, hi, hb, hd]
  exact hstep.trans <| exec_console (s.takeCommand n scr rest) n g { scr with rx := rest } i rfl
    (State.instAt_takeCommand_self s n scr rest g hi) hr hv

/-- What a step of a command port does to its instance depends on the configuration and that instance alone
(42_console.md R129). -/
theorem stepCommand_local (s t s' : State) (n : Nat) (h : stepCommand n s = .next t) (hc : s'.cfg = s.cfg)
    (hs : s'.screens[n]? = s.screens[n]?) : ∃ t', stepCommand n s' = .next t' ∧ t'.screens[n]? = t.screens[n]? := by
  obtain ⟨g, scr, hi, hcase⟩ := stepCommand_next n s t h
  have hi' : s'.instAt n = some (g, scr) := (State.instAt_congr hc hs).trans hi
  obtain ⟨m, ms, hb, hr⟩ | ⟨hb, hd, rfl⟩ | ⟨hb, i, rest, hd, hr⟩ := hcase
  · obtain ⟨scr', rfl, hrun⟩ := State.runMicros_local _ _ _ _ _ _ hr
    exact ⟨_, (stepCommand_of_busy s' n g scr m ms hi' hb).trans (hrun s' hc), getElem?_set_congr scr' hs⟩
  · exact ⟨s', stepCommand_of_incomplete s' n g scr hi' hb (hc ▸ hd), hs⟩
  · obtain ⟨scr', rfl, hrun⟩ := State.runMicros_local _ _ _ _ _ _ hr
    have hrun' := hrun (s'.takeCommand n scr rest) hc
    rw [← hc] at hrun'
    exact ⟨_, (stepCommand_of_instr s' n g scr i rest hi' hb (hc ▸ hd)).trans hrun',
      getElem?_set_congr scr' (getElem?_set_congr _ hs)⟩

/-- Settles O45: the frame of a step of a command port, and that it depends on its own instance alone. -/
theorem consoleStepsTouchOnlyTheirInstance : Obligations.ConsoleStepsTouchOnlyTheirInstance := by
  intro s t s' n h
  refine ⟨?_, stepCommand_local s t s' n h⟩
  obtain ⟨scr', a, rfl⟩ := stepCommand_frame n s t h
  exact ⟨rfl, rfl, rfl, rfl, rfl, fun m hm => List.getElem?_set_ne hm.symm⟩

end Sys2Proof.Machine
end

section
/-! PROOFS. The frame counter and the blink cycle (43_frame_blink.md R132, R133, R134, R136): the place of FC in the
cycle and the cursor states derived from it. -/

namespace Sys2Proof.Machine

/-! ## The blink cycle at the wrap -/

/-- Where the cycle divides 2^32, the wrap of FC does not disturb the place in the cycle (43_frame_blink.md R136). -/
theorem toNat_succ_mod_of_dvd {n : Nat} (hn : n ∣ 2 ^ 32) (fc : BitVec 32) :
    (fc + 1).toNat % n = (fc.toNat % n + 1) % n := by
  have hfc : (fc + 1).toNat = (fc.toNat + 1) % 2 ^ 32 := BitVec.toNat_add fc 1
  rw [hfc, Nat.mod_mod_of_dvd _ hn, Nat.mod_add_mod]

/-- A number whose successor n does not divide is not at the last place of a cycle of n. -/
theorem mod_add_one_lt_of_not_dvd {n x : Nat} (hpos : 0 < n) (hn : ¬n ∣ x + 1) : x % n + 1 < n := by
  refine Nat.lt_of_le_of_ne (Nat.mod_lt x hpos) fun hend => hn (Nat.dvd_of_mod_eq_zero ?_)
  rw [← Nat.mod_add_mod, hend, Nat.mod_self]

/-- A cycle of at least two frames starts with its ON half (43_frame_blink.md R132). -/
theorem blinkOn_zero {c : Config} (hcycle : 2 ≤ c.blinkCycle) : blinkOn c 0 = true := by
  have hhalf : 0 % c.blinkCycle < c.blinkCycle / 2 := by
    rw [Nat.zero_mod]
    exact Nat.div_pos hcycle two_pos
  exact decide_eq_true hhalf

/-- Settles O26: 2^32 is 0 in a cycle that divides it, and in no other cycle is 2^32 - 1 the last place. -/
theorem blinkPhaseAtTheWrapOfTheFrameCounter : Obligations.BlinkPhaseAtTheWrapOfTheFrameCounter := by
  intro c hw
  obtain ⟨⟨-, -, hcycle⟩, -⟩ := hw
  have hwrap : BitVec.allOnes 32 + 1 = 0 := rfl
  refine ⟨toNat_succ_mod_of_dvd, fun hn => ?_, hwrap, ?_⟩
  · exact mod_add_one_lt_of_not_dvd (x := (BitVec.allOnes 32).toNat) (by omega) hn
  · rw [hwrap]
    exact blinkOn_zero hcycle

/-! ## The cursor states -/

/-- BlinkOn, spelled out (43_frame_blink.md R132). -/
theorem blinkOn_iff (c : Config) (fc : BitVec 32) :
    blinkOn c fc = true ↔ fc.toNat % c.blinkCycle < c.blinkCycle / 2 := decide_eq_true_iff

theorem cursorPhase_of_hidden {c : Config} {scr : Screen} {fc : BitVec 32} (h : scr.curvis = false) :
    cursorPhase c scr fc = .hidden := by
  simp [cursorPhase, h]

theorem cursorPhase_of_visible {c : Config} {scr : Screen} {fc : BitVec 32} (h : scr.curvis = true) :
    cursorPhase c scr fc = if blinkOn c fc = true then .visibleOn else .visibleOff := by
  simp [cursorPhase, h]

theorem cursorPhase_eq_hidden_iff (c : Config) (scr : Screen) (fc : BitVec 32) :
    cursorPhase c scr fc = .hidden ↔ scr.curvis = false := by
  cases hvis : scr.curvis with
  | false => simp [cursorPhase_of_hidden hvis]
  | true => cases hon : blinkOn c fc <;> simp [cursorPhase_of_visible hvis, hon]

theorem cursorPhase_eq_visibleOn_iff (c : Config) (scr : Screen) (fc : BitVec 32) :
    cursorPhase c scr fc = .visibleOn ↔ scr.curvis = true ∧ blinkOn c fc = true := by
  cases hvis : scr.curvis with
  | false => simp [cursorPhase_of_hidden hvis]
  | true => simp [cursorPhase_of_visible hvis]

theorem cursorPhase_eq_visibleOff_iff (c : Config) (scr : Screen) (fc : BitVec 32) :
    cursorPhase c scr fc = .visibleOff ↔ scr.curvis = true ∧ ¬blinkOn c fc = true := by
  cases hvis : scr.curvis with
  | false => simp [cursorPhase_of_hidden hvis]
  | true => simp [cursorPhase_of_visible hvis]

/-- Visible cursors are in the same state exactly when they are in the same half of the cycle. -/
theorem cursorPhase_eq_iff_of_visible {c : Config} {scr : Screen} (h : scr.curvis = true) (fc fc' : BitVec 32) :
    cursorPhase c scr fc' = cursorPhase c scr fc ↔ blinkOn c fc' = blinkOn c fc := by
  rw [cursorPhase_of_visible h, cursorPhase_of_visible h]
  cases blinkOn c fc' <;> cases blinkOn c fc <;> decide

/-- Settles O27: the state is a function of CURVIS and of the half of the cycle FC is in; HIDE_CURSOR and SHOW_CURSOR
set the one, and an increment of FC moves the other. -/
theorem cursorStateMachine : Obligations.CursorStateMachine := by
  intro c g scr fc
  simp only [← blinkOn_iff]
  refine ⟨cursorPhase_eq_hidden_iff c scr fc, cursorPhase_eq_visibleOn_iff c scr fc,
    cursorPhase_eq_visibleOff_iff c scr fc, ⟨{ scr with curvis := false }, rfl, cursorPhase_of_hidden rfl⟩,
    ⟨{ scr with curvis := true }, rfl, cursorPhase_of_visible rfl, fun hvis => ?_⟩, cursorPhase_of_hidden,
    fun hvis => ⟨?_, cursorPhase_eq_iff_of_visible hvis fc (fc + 1)⟩⟩
  · rw [cursorPhase_of_visible hvis, cursorPhase_of_visible rfl]
  · rw [Ne, cursorPhase_eq_hidden_iff, hvis]
    decide

end Sys2Proof.Machine
end

section
/-! PROOFS. The decoder and the encoder (30_encoding.md R67 to R81, R86): the round trip, the words of the spec, when a
command is whole, and the refused words. -/

namespace Sys2Proof.Machine

open Sys2Proof.Laws

/-! ## The round trip -/

/-- An accepted first word whose data words are all there is that command, and the words after them stay
(30_encoding.md R76). -/
theorem decode_of_accepted (c : Config) (p : Port) (w : Word) (rest : List Word) (i : Instr)
    (hd : decodeFirst c p w (textOf (rest.take (dataWords w)) (fieldN w)) = .ok i) (hlen : dataWords w ≤ rest.length) :
    decode c p (w :: rest) = .instr i (rest.drop (dataWords w)) := by
  simp only [decode, hd, if_neg (Nat.not_lt.2 hlen)]

/-- An accepted first word with a data word still to come is no command yet (30_encoding.md R76). -/
theorem decode_of_waiting (c : Config) (p : Port) (w : Word) (rest : List Word) (i : Instr)
    (hd : decodeFirst c p w (textOf (rest.take (dataWords w)) (fieldN w)) = .ok i) (hlen : rest.length < dataWords w) :
    decode c p (w :: rest) = .incomplete := by
  simp only [decode, hd, if_pos hlen]

/-- The encoding of every command whose text fits has the shape of R76. -/
theorem encode_shape (i : Instr) (h : i.TextFits) : ∃ w ws, encode i = w :: ws ∧ ws.length = dataWords w :=
  match i, h with
  | .clear, h => EncodeShape.clear h
  | .setFont v, h => EncodeShape.setFont v h
  | .setAttr v, h => EncodeShape.setAttr v h
  | .setCursor x y, h => EncodeShape.setCursor x y h
  | .showCursor, h => EncodeShape.showCursor h
  | .hideCursor, h => EncodeShape.hideCursor h
  | .print t, h => EncodeShape.print t h
  | .printAt x y t, h => EncodeShape.printAt x y t h
  | .printRight y t, h => EncodeShape.printRight y t h
  | .printCenter y t, h => EncodeShape.printCenter y t h
  | .rasterize inst line ratio, h => EncodeShape.rasterize inst line ratio h
  | .frameTick, h => EncodeShape.frameTick h

/-- A one-operand command word: its opcode, its must-be-zero field, its value (30_encoding.md R70). -/
theorem valueWord_fields (op : BitVec 4) (v : Byte) :
    opOf (op ++ 0#20 ++ v) = op.toNat ∧ (op ++ 0#20 ++ v).extractLsb' 8 20 = 0 ∧ fieldV (op ++ 0#20 ++ v) = v := by
  have hop := op.isLt
  have hv := v.isLt
  refine ⟨?_, (field_eq_zero ..).2 ?_, BitVec.eq_of_toNat_eq ?_⟩
  · rw [opOf_eq, toNat_append_eq, toNat_append_eq, BitVec.toNat_ofNat]; omega
  · rw [toNat_append_eq, toNat_append_eq, BitVec.toNat_ofNat]; omega
  · rw [fieldV, toNat_field, toNat_append_eq, toNat_append_eq, BitVec.toNat_ofNat]; omega

/-- The command word of SET_CURSOR: its opcode, its must-be-zero field, its position (30_encoding.md R71). -/
theorem cursorWord_fields (op : BitVec 4) (x y : Byte) :
    opOf (op ++ 0#12 ++ y ++ x) = op.toNat ∧ (op ++ 0#12 ++ y ++ x).extractLsb' 16 12 = 0 ∧
      fieldX (op ++ 0#12 ++ y ++ x) = x ∧ fieldY (op ++ 0#12 ++ y ++ x) = y := by
  have hword : (op ++ 0#12 ++ y ++ x : Word) = textWord op 0 y x := rfl
  rw [hword]
  refine ⟨textWord_op op 0 y x (by decide), ?_, textWord_x op 0 y x (by decide), textWord_y op 0 y x (by decide)⟩
  exact BitVec.eq_of_toNat_eq (textWord_n op 0 y x (by decide))

/-- The command word of RASTERIZE: its opcode and its operands (30_encoding.md R73). -/
theorem rasterWord_fields (op inst : BitVec 4) (line : Line) (ratio : Byte) :
    opOf (op ++ inst ++ ratio ++ line) = op.toNat ∧ fieldInst (op ++ inst ++ ratio ++ line) = inst ∧
      fieldLine (op ++ inst ++ ratio ++ line) = line ∧ fieldRatio (op ++ inst ++ ratio ++ line) = ratio := by
  have hop := op.isLt
  have hinst := inst.isLt
  have hline := line.isLt
  have hratio := ratio.isLt
  refine ⟨?_, BitVec.eq_of_toNat_eq ?_, BitVec.eq_of_toNat_eq ?_, BitVec.eq_of_toNat_eq ?_⟩
  · rw [opOf_eq, toNat_append_eq, toNat_append_eq, toNat_append_eq]; omega
  · rw [fieldInst, toNat_field, toNat_append_eq, toNat_append_eq, toNat_append_eq]; omega
  · rw [fieldLine, toNat_field, toNat_append_eq, toNat_append_eq, toNat_append_eq]; omega
  · rw [fieldRatio, toNat_field, toNat_append_eq, toNat_append_eq, toNat_append_eq]; omega

/-- With no position, the low half of a format-T command word is zero (30_encoding.md R72). -/
theorem textWord_low_half (op : BitVec 4) (n : Nat) (hn : n ≤ 4095) : (textWord op n 0 0).extractLsb' 0 16 = 0 := by
  have hzero : (0 : Byte).toNat = 0 := rfl
  rw [field_eq_zero, textWord_toNat op n 0 0 hn, hzero]
  omega

/-! ### Accepted first words, by opcode (30_encoding.md R78) -/

section

variable {c : Config} {n : Nat} {w : Word} {t : List Byte}

theorem decodeFirst_setFont {v : Byte} (hop : opOf w = 2) (hz : w.extractLsb' 8 20 = 0) (hv : fieldV w = v)
    (hfont : v.toNat < c.numFonts) : decodeFirst c (.cmd n) w t = .ok (.setFont v) := by
  simp [decodeFirst, hop, hz, hv, Nat.not_le.2 hfont]

theorem decodeFirst_setAttr {v : Byte} (hop : opOf w = 3) (hz : w.extractLsb' 8 20 = 0) (hv : fieldV w = v) :
    decodeFirst c (.cmd n) w t = .ok (.setAttr v) := by
  simp [decodeFirst, hop, hz, hv]

theorem decodeFirst_setCursor {x y : Byte} (hop : opOf w = 4) (hz : w.extractLsb' 16 12 = 0) (hx : fieldX w = x)
    (hy : fieldY w = y) : decodeFirst c (.cmd n) w t = .ok (.setCursor x y) := by
  simp [decodeFirst, hop, hz, hx, hy]

theorem decodeFirst_print (hop : opOf w = 7) (hz : w.extractLsb' 0 16 = 0) :
    decodeFirst c (.cmd n) w t = .ok (.print t) := by
  simp [decodeFirst, hop, hz]

theorem decodeFirst_printAt {x y : Byte} (hop : opOf w = 8) (hx : fieldX w = x) (hy : fieldY w = y) :
    decodeFirst c (.cmd n) w t = .ok (.printAt x y t) := by
  simp [decodeFirst, hop, hx, hy]

theorem decodeFirst_printRight {y : Byte} (hop : opOf w = 9) (hz : fieldX w = 0) (hy : fieldY w = y) :
    decodeFirst c (.cmd n) w t = .ok (.printRight y t) := by
  simp [decodeFirst, hop, hz, hy]

theorem decodeFirst_printCenter {y : Byte} (hop : opOf w = 10) (hz : fieldX w = 0) (hy : fieldY w = y) :
    decodeFirst c (.cmd n) w t = .ok (.printCenter y t) := by
  simp [decodeFirst, hop, hz, hy]

theorem decodeFirst_rasterize {inst : BitVec 4} {line : Line} {ratio : Byte} (hop : opOf w = 11)
    (hi : fieldInst w = inst) (hl : fieldLine w = line) (hr : fieldRatio w = ratio)
    (hexists : inst.toNat < c.numInsts) :
    decodeFirst c .raster w t = .ok (.rasterize inst line ratio) := by
  simp [decodeFirst, hop, hi, hl, hr, Nat.not_le.2 hexists]

end

/-! ### The first word of an encoding -/

/-- The text of a format-T command, read back from its data words as its command word says. -/
theorem textOf_encoded (op : BitVec 4) (y x : Byte) (t : List Byte) (ht : t.length ≤ 4095) :
    textOf (packText t) (fieldN (textWord op t.length y x)) = t := by
  rw [textWord_n op _ y x ht, textOf_packText]

/-- The decoder accepts the first word of a console command's encoding as that command, on a command port. -/
theorem decodeFirst_encode_console (c : Config) (n : Nat) (i : Instr) (w : Word) (ws : List Word)
    (hr : i.isRaster = false) (ht : i.TextFits) (hv : i.valuesExist c = true) (he : encode i = w :: ws) :
    decodeFirst c (.cmd n) w (textOf ws (fieldN w)) = .ok i := by
  cases i with
  | rasterize inst line ratio => cases hr
  | frameTick => cases hr
  | clear => cases he; rfl
  | showCursor => cases he; rfl
  | hideCursor => cases he; rfl
  | setFont v =>
    cases he
    obtain ⟨hop, hz, hval⟩ := valueWord_fields 0x2 v
    exact decodeFirst_setFont hop hz hval (of_decide_eq_true hv)
  | setAttr v =>
    cases he
    obtain ⟨hop, hz, hval⟩ := valueWord_fields 0x3 v
    exact decodeFirst_setAttr hop hz hval
  | setCursor x y =>
    cases he
    obtain ⟨hop, hz, hx, hy⟩ := cursorWord_fields 0x4 x y
    exact decodeFirst_setCursor hop hz hx hy
  | print t =>
    cases he
    rw [textOf_encoded _ _ _ t ht]
    exact decodeFirst_print (textWord_op _ _ _ _ ht) (textWord_low_half _ _ ht)
  | printAt x y t =>
    cases he
    rw [textOf_encoded _ _ _ t ht]
    exact decodeFirst_printAt (textWord_op _ _ _ _ ht) (textWord_x _ _ _ _ ht) (textWord_y _ _ _ _ ht)
  | printRight y t =>
    cases he
    rw [textOf_encoded _ _ _ t ht]
    exact decodeFirst_printRight (textWord_op _ _ _ _ ht) (textWord_x _ _ _ _ ht) (textWord_y _ _ _ _ ht)
  | printCenter y t =>
    cases he
    rw [textOf_encoded _ _ _ t ht]
    exact decodeFirst_printCenter (textWord_op _ _ _ _ ht) (textWord_x _ _ _ _ ht) (textWord_y _ _ _ _ ht)

/-- The decoder accepts the word of a raster command's encoding as that command, on the raster port. -/
theorem decodeFirst_encode_raster (c : Config) (i : Instr) (w : Word) (ws : List Word) (t : List Byte)
    (hr : i.isRaster = true) (hv : i.valuesExist c = true) (he : encode i = w :: ws) :
    decodeFirst c .raster w t = .ok i := by
  cases i with
  | rasterize inst line ratio =>
    cases he
    obtain ⟨hop, hinst, hline, hratio⟩ := rasterWord_fields 0xB inst line ratio
    exact decodeFirst_rasterize hop hinst hline hratio (of_decide_eq_true hv)
  | frameTick => cases he; rfl
  | clear => cases hr
  | setFont v => cases hr
  | setAttr v => cases hr
  | setCursor x y => cases hr
  | showCursor => cases hr
  | hideCursor => cases hr
  | print t => cases hr
  | printAt x y t => cases hr
  | printRight y t => cases hr
  | printCenter y t => cases hr

/-- The decoder accepts the first word of a well-formed command's encoding as that command. -/
theorem decodeFirst_encode (c : Config) (p : Port) (i : Instr) (w : Word) (ws : List Word) (h : i.Wf c p)
    (he : encode i = w :: ws) : decodeFirst c p w (textOf ws (fieldN w)) = .ok i := by
  obtain ⟨ht, hv, hp⟩ := h
  cases p with
  | cmd n => exact decodeFirst_encode_console c n i w ws (by simpa [Instr.onItsPort] using hp) ht hv he
  | raster => exact decodeFirst_encode_raster c i w ws _ hp hv he

/-- Settles O1: the encoding is a command word with the data words it tells (R76), and the decoder accepts that word. -/
theorem decodeOfEncodeGivesTheCommandBack : Obligations.DecodeOfEncodeGivesTheCommandBack := by
  intro c p i rest h
  obtain ⟨w, ws, he, hlen⟩ := encode_shape i h.1
  have hd := decodeFirst_encode c p i w ws h he
  have htake : (ws ++ rest).take (dataWords w) = ws := List.take_left' hlen
  have hdrop : (ws ++ rest).drop (dataWords w) = rest := List.drop_left' hlen
  have hall := decode_of_accepted c p w (ws ++ rest) i (by rwa [htake]) (by rw [List.length_append]; omega)
  rwa [hdrop, ← List.cons_append, ← he] at hall

/-- Settles O2: each word sequence, decoded. -/
theorem wordsTheSpecWritesOutDecodeAsItSays : Obligations.WordsTheSpecWritesOutDecodeAsItSays := by
  unfold Obligations.WordsTheSpecWritesOutDecodeAsItSays
  decide

/-! ## Data words -/

/-- The number of data words, by opcode (30_encoding.md R76). -/
theorem dataWords_eq (w : Word) : dataWords w = if 7 ≤ opOf w ∧ opOf w ≤ 10 then (fieldN w + 3) / 4 else 0 := by
  simp only [dataWords, isTextOp, Bool.and_eq_true, decide_eq_true_eq]

/-- Settles O4: the number of data words, and the decoder with too few and with enough of them. -/
theorem commandWaitsForTheDataWordsItsFirstWordTells : Obligations.CommandWaitsForTheDataWordsItsFirstWordTells :=
  fun c p w rest i hd => ⟨dataWords_eq w, decode_of_waiting c p w rest i hd, decode_of_accepted c p w rest i hd⟩

/-! ## Refused words -/

/-- A reserved opcode is refused on every port (30_encoding.md R79). -/
theorem decodeFirst_reserved (c : Config) (p : Port) (w : Word) (t : List Byte) (hop : opOf w = 0 ∨ 13 ≤ opOf w) :
    decodeFirst c p w t = .error .reservedOpcode := if_pos hop

/-- A console opcode is refused on the raster port (60_exceptions.md R140). -/
theorem decodeFirst_console_on_raster (c : Config) (w : Word) (t : List Byte) (h1 : 1 ≤ opOf w) (h10 : opOf w ≤ 10) :
    decodeFirst c .raster w t = .error .wrongPort := by
  rw [decodeFirst, if_neg (by omega), if_pos ⟨h10, rfl⟩]

/-- A raster opcode is refused on a command port (60_exceptions.md R140). -/
theorem decodeFirst_raster_on_cmd (c : Config) (n : Nat) (w : Word) (t : List Byte) (hop : opOf w = 11 ∨ opOf w = 12) :
    decodeFirst c (.cmd n) w t = .error .wrongPort := by
  rw [decodeFirst, if_neg (by omega), if_neg (fun h => Port.noConfusion h.2), if_pos ⟨by omega, Port.noConfusion⟩]

/-- The meaning of a console command is refused on the raster port (60_exceptions.md R140). -/
theorem exec_console_on_raster (s : State) (i : Instr) (hr : i.isRaster = false) (ha : s.active = .raster) :
    exec i s = .refused .wrongPort := by
  cases i with
  | rasterize inst line ratio => cases hr
  | frameTick => cases hr
  | clear => exact State.onPort_raster s _ ha
  | setFont v => exact State.onPort_raster s _ ha
  | setAttr v => exact State.onPort_raster s _ ha
  | setCursor x y => exact State.onPort_raster s _ ha
  | showCursor => exact State.onPort_raster s _ ha
  | hideCursor => exact State.onPort_raster s _ ha
  | print t => exact State.onPort_raster s _ ha
  | printAt x y t => exact State.onPort_raster s _ ha
  | printRight y t => exact State.onPort_raster s _ ha
  | printCenter y t => exact State.onPort_raster s _ ha

/-- The meaning of a raster command is refused on a command port (60_exceptions.md R140). -/
theorem exec_raster_on_cmd (s : State) (i : Instr) (n : Nat) (hr : i.isRaster = true) (ha : s.active = .cmd n) :
    exec i s = .refused .wrongPort := by
  cases i with
  | rasterize inst line ratio => simp only [exec, execRasterize, ha]
  | frameTick => simp only [exec, execFrameTick, ha]
  | clear => cases hr
  | setFont v => cases hr
  | setAttr v => cases hr
  | setCursor x y => cases hr
  | showCursor => cases hr
  | hideCursor => cases hr
  | print t => cases hr
  | printAt x y t => cases hr
  | printRight y t => cases hr
  | printCenter y t => cases hr

/-- Settles O6: the decoder's two port checks, and the port check of every meaning. -/
theorem opcodesOnTheOtherKindOfPortAreRefused : Obligations.OpcodesOnTheOtherKindOfPortAreRefused := by
  refine ⟨fun c w rest => ⟨fun ⟨h1, h10⟩ => ?_, fun hop n => ?_⟩, fun s i hp => ?_⟩
  · exact decode_refuse c _ w rest _ fun t => decodeFirst_console_on_raster c w t h1 h10
  · have hop : opOf w = 11 ∨ opOf w = 12 := hop
    exact decode_refuse_single c _ w rest _ (by omega) fun t => decodeFirst_raster_on_cmd c n w t hop
  · cases ha : s.active with
    | raster => exact exec_console_on_raster s i (by simpa [Instr.onItsPort, ha] using hp) ha
    | cmd n => exact exec_raster_on_cmd s i n (by simpa [Instr.onItsPort, ha] using hp) ha

/-! ### Must-be-zero fields, by the field's place (30_encoding.md R69 to R73, R80) -/

theorem decodeFirst_nonzero_28 {c : Config} {n : Nat} {w : Word} {t : List Byte}
    (hop : opOf w = 1 ∨ opOf w = 5 ∨ opOf w = 6)
    (hz : w.extractLsb' 0 28 ≠ 0#28) : decodeFirst c (.cmd n) w t = .error .nonzeroReservedField := by
  obtain hop | hop | hop := hop <;> simp [decodeFirst, hop, hz]

theorem decodeFirst_nonzero_20 {c : Config} {n : Nat} {w : Word} {t : List Byte} (hop : opOf w = 2 ∨ opOf w = 3)
    (hz : w.extractLsb' 8 20 ≠ 0#20) : decodeFirst c (.cmd n) w t = .error .nonzeroReservedField := by
  obtain hop | hop := hop <;> simp [decodeFirst, hop, hz]

theorem decodeFirst_nonzero_setCursor {c : Config} {n : Nat} {w : Word} {t : List Byte} (hop : opOf w = 4)
    (hz : w.extractLsb' 16 12 ≠ 0#12) : decodeFirst c (.cmd n) w t = .error .nonzeroReservedField := by
  simp [decodeFirst, hop, hz]

theorem decodeFirst_nonzero_print {c : Config} {n : Nat} {w : Word} {t : List Byte} (hop : opOf w = 7)
    (hz : w.extractLsb' 0 16 ≠ 0#16) : decodeFirst c (.cmd n) w t = .error .nonzeroReservedField := by
  simp [decodeFirst, hop, hz]

theorem decodeFirst_nonzero_aligned {c : Config} {n : Nat} {w : Word} {t : List Byte} (hop : opOf w = 9 ∨ opOf w = 10)
    (hz : fieldX w ≠ 0#8) : decodeFirst c (.cmd n) w t = .error .nonzeroReservedField := by
  obtain hop | hop := hop <;> simp [decodeFirst, hop, hz]

theorem decodeFirst_nonzero_frameTick {c : Config} {w : Word} {t : List Byte} (hop : opOf w = 12)
    (hz : w.extractLsb' 0 28 ≠ 0#28) : decodeFirst c .raster w t = .error .nonzeroReservedField := by
  simp [decodeFirst, hop, hz]

/-- Settles O7: each format's must-be-zero field is checked before the values; only the text commands have data words to
consume. -/
theorem nonzeroReservedFieldsAreRefused : Obligations.NonzeroReservedFieldsAreRefused := by
  intro c n w rest
  have hopOf : (w.extractLsb' 28 4).toNat = opOf w := rfl
  simp only [List.mem_cons, List.not_mem_nil, or_false, hopOf]
  refine ⟨fun hop hz => ?_, fun hop hz => ?_, fun hop hz => ?_, fun hop hz => ?_, fun hop hz => ?_, fun hop hz => ?_⟩
  · exact decode_refuse_single c _ w rest _ (by omega) fun t => decodeFirst_nonzero_28 hop hz
  · exact decode_refuse_single c _ w rest _ (by omega) fun t => decodeFirst_nonzero_20 hop hz
  · exact decode_refuse_single c _ w rest _ (by omega) fun t => decodeFirst_nonzero_setCursor hop hz
  · exact decode_refuse c _ w rest _ fun t => decodeFirst_nonzero_print hop hz
  · exact decode_refuse c _ w rest _ fun t => decodeFirst_nonzero_aligned hop hz
  · exact decode_refuse_single c _ w rest _ (by omega) fun t => decodeFirst_nonzero_frameTick hop hz

end Sys2Proof.Machine
end

section
/-! PROOFS. The machine as a whole (20_memory.md R57 to R59, 60_exceptions.md): what a step runs, what it
refuses, what it keeps, and that it does not fault. -/

namespace Sys2Proof.Machine

/-! ## Which step is taken -/

/-- With a request waiting, the raster port goes first (60_exceptions.md R144). -/
theorem step_eq_stepRaster (s : State) (hw : s.cfg.Wf) (hr : s.rasterRx ≠ []) : step s = stepRaster s := by
  obtain ⟨w, ws, hr⟩ := List.exists_cons_of_ne_nil hr
  simp only [step, stepSystem, if_pos hw, hr]

/-- With no request waiting, the host's next move or a ready command port goes. -/
theorem step_eq_stepConsole (s : State) (hw : s.cfg.Wf) (hr : s.rasterRx = []) : step s = stepConsole s := by
  simp only [step, stepSystem, if_pos hw, hr]

/-- A machine whose configuration is not admitted is refused (00_scope.md R18). -/
theorem step_of_not_wf (s : State) (hw : ¬s.cfg.Wf) : step s = .refused .illFormedConfig := if_neg hw

/-- A port from which something is decoded holds a word. -/
theorem ne_nil_of_decode {c : Config} {p : Port} {ws : List Word} (h : decode c p ws ≠ .incomplete) : ws ≠ [] := by
  rintro rfl
  exact h rfl

/-- Without moves of the host the first ready command port goes (log 4). -/
theorem step_ready (s : State) (n : Nat) (hw : s.cfg.Wf) (hr : s.rasterRx = []) (hin : s.inputs = [])
    (hf : s.firstReady = some n) : step s = stepCommand n s := by
  rw [step_eq_stepConsole s hw hr]
  simp only [stepConsole, hin, hf]

/-! ## Commands and micro-steps -/

/-- A granted port with a whole command runs its meaning, the command taken from the port. -/
theorem stepCommand_eq_exec (s : State) (n : Nat) (g : InstCfg) (scr : Screen) (i : Instr) (rest : List Word)
    (hi : s.instAt n = some (g, scr)) (hb : scr.busy = []) (hd : decode s.cfg (.cmd n) scr.rx = .instr i rest) :
    stepCommand n s = exec i (s.takeCommand n scr rest) := by
  simp only [stepCommand, hi, hb, hd]

/-- Settles O48: the grant goes to the port, and the port to the meaning. -/
theorem stepRunsTheDecodedConsoleCommand : Obligations.StepRunsTheDecodedConsoleCommand := by
  intro s n more g scr i rest hw hr hin hi hb hd
  rw [step_serve s n more hw hr hin]
  exact stepCommand_eq_exec { s with inputs := more } n g scr i rest hi hb hd

/-- Settles O49: a request that decodes is a word that waits, so the raster port goes. -/
theorem stepRunsTheDecodedRasterRequest : Obligations.StepRunsTheDecodedRasterRequest := by
  intro s i rest hw hd
  rw [step_eq_stepRaster s hw (ne_nil_of_decode (by rw [hd]; exact nofun)), stepRaster, hd]
  rfl

/-- Micro-steps whose first one succeeds leave the others as the command in progress (10_state.md R45). -/
theorem State.runMicros_cons (s : State) (n : Nat) (g : InstCfg) (scr scr' : Screen) (m : Micro) (ms : List Micro)
    (hp : perform s.cfg g scr m = some scr') :
    s.runMicros n g scr (m :: ms) = .next (s.setScreen n { scr' with busy := ms }) := by
  simp only [State.runMicros, hp]

/-- Settles O50: the grant goes to the port, and the port to the first micro-step in progress. -/
theorem stepPerformsTheNextMicroStep : Obligations.StepPerformsTheNextMicroStep := by
  intro s n more g scr scr' m ms hw hr hin hi hb hp
  rw [step_serve s n more hw hr hin, stepCommand_of_busy { s with inputs := more } n g scr m ms hi hb]
  exact State.runMicros_cons { s with inputs := more } n g scr scr' m ms hp

/-- With no ready port, none is the first. -/
theorem State.firstReady_eq_none (s : State) (h : ∀ n, s.ready n = false) : s.firstReady = none :=
  List.find?_eq_none.2 fun n _ => by rw [h n]; decide

/-- Settles O51: the granted port waits, and without a grant no port is the first ready one. -/
theorem nothingHappensWithoutAWholeCommand : Obligations.NothingHappensWithoutAWholeCommand := by
  refine ⟨fun s n more g scr hw hr hin hi hb hd => ?_, fun s hw hr hin hready => ?_⟩
  · rw [step_serve s n more hw hr hin]
    exact stepCommand_of_incomplete { s with inputs := more } n g scr hi hb hd
  · rw [step_eq_stepConsole s hw hr]
    simp only [stepConsole, hin, State.firstReady_eq_none s hready]

/-! ## Arrivals -/

/-- A step in which a word arrives. -/
theorem step_send (s : State) (p : Port) (w : Word) (more : List Input) (hw : s.cfg.Wf) (hr : s.rasterRx = [])
    (hin : s.inputs = .send p w :: more) : step s = deliver p w { s with inputs := more } := by
  rw [step_eq_stepConsole s hw hr]
  simp only [stepConsole, hin]

/-- A command port that does not exist takes no step (log 15). -/
theorem stepCommand_missing (s : State) (n : Nat) (hi : s.instAt n = none) :
    stepCommand n s = .refused .noSuchPort := by
  simp only [stepCommand, hi]

/-- A word does not arrive at a command port that does not exist (log 15). -/
theorem deliver_missing (s : State) (n : Nat) (w : Word) (hi : s.instAt n = none) :
    deliver (.cmd n) w s = .refused .noSuchPort := by
  simp only [deliver, hi]

/-- A word that arrives at a command port waits behind the others (10_state.md R30). -/
theorem deliver_cmd (s : State) (n : Nat) (w : Word) (g : InstCfg) (scr : Screen) (hi : s.instAt n = some (g, scr)) :
    deliver (.cmd n) w s = .next (s.setScreen n { scr with rx := scr.rx ++ [w] }) := by
  simp only [deliver, hi]

/-- Settles O52: what `deliver` answers at each kind of port, and the two moves to a missing one. -/
theorem wordsArriveInTheOrderSent : Obligations.WordsArriveInTheOrderSent := by
  refine ⟨fun s n w more g scr hw hr hin hi => ?_, fun s w more hw hr hin => ?_, fun s n m more hw hr hin hi hm => ?_⟩
  · rw [step_send s _ w more hw hr hin]
    exact deliver_cmd { s with inputs := more } n w g scr hi
  · rw [step_send s _ w more hw hr hin, deliver, hr]
    rfl
  · obtain rfl | ⟨w, rfl⟩ := hm
    · rw [step_serve s n more hw hr hin]
      exact stepCommand_missing { s with inputs := more } n hi
    · rw [step_send s _ w more hw hr hin]
      exact deliver_missing { s with inputs := more } n w hi

/-! ## Refusals -/

/-- A raster request the decoder refuses refuses the step (60_exceptions.md R139). -/
theorem step_of_raster_refuse (s : State) (e : DecodeError) (rest : List Word) (hw : s.cfg.Wf)
    (hd : decode s.cfg .raster s.rasterRx = .refuse e rest) : step s = .refused (Refusal.ofDecode e) := by
  rw [step_eq_stepRaster s hw (ne_nil_of_decode (by rw [hd]; exact nofun)), stepRaster, hd]

/-- A command the decoder refuses refuses the step of its idle port (60_exceptions.md R139). -/
theorem stepCommand_of_refuse (s : State) (n : Nat) (g : InstCfg) (scr : Screen) (e : DecodeError) (rest : List Word)
    (hi : s.instAt n = some (g, scr)) (hb : scr.busy = []) (hd : decode s.cfg (.cmd n) scr.rx = .refuse e rest) :
    stepCommand n s = .refused (Refusal.ofDecode e) := by
  simp only [stepCommand, hi, hb, hd]

/-- Settles O5: the decoder refuses on the opcode, and the two steps that meet the word with it. -/
theorem reservedOpcodesAreRefused : Obligations.ReservedOpcodesAreRefused := by
  intro c p w rest hop
  have hop : opOf w = 0 ∨ 13 ≤ opOf w := by
    have hopOf : (w.extractLsb' 28 4).toNat = opOf w := rfl
    simp only [List.mem_cons, List.not_mem_nil, or_false, hopOf] at hop
    omega
  have hdecode (c : Config) (p : Port) : decode c p (w :: rest) = .refuse .reservedOpcode rest :=
    decode_refuse_single c p w rest _ (by omega) fun t => decodeFirst_reserved c p w t hop
  refine ⟨hdecode c p, fun s hw hr => ?_, fun s n more g scr hw hr hin hi hb hrx => ?_⟩
  · exact step_of_raster_refuse s _ rest hw (hr ▸ hdecode s.cfg .raster)
  · rw [step_serve s n more hw hr hin]
    exact stepCommand_of_refuse { s with inputs := more } n g scr _ rest hi hb (hrx ▸ hdecode s.cfg (.cmd n))

/-- A refused run stays refused, for the same reason (60_exceptions.md R139). -/
theorem core_run_refused_add (M : Host.Core) (k j : Nat) (s : M.State) (r : M.Refusal) (h : M.run k s = .refused r) :
    M.run (k + j) s = .refused r := by
  induction k generalizing s with
  | zero => cases h
  | succ k ih =>
    rw [Nat.add_right_comm]
    cases hs : M.step s with
    | next s' =>
      rw [core_run_next M _ s s' hs] at h ⊢
      exact ih s' h
    | fault f =>
      rw [core_run_fault M _ s f hs] at h
      cases h
    | refused r' =>
      rw [core_run_refused M _ s r' hs] at h ⊢
      exact h

/-- Settles O58: the two ports a step can take a command from, and the induction over the run. -/
theorem refusalStaysForTheRestOfTheRun : Obligations.RefusalStaysForTheRestOfTheRun := by
  refine ⟨step_of_raster_refuse, fun s n g scr e rest hw hr hgo hi hb hd => ?_, ⟨rfl, rfl, rfl, rfl, rfl⟩,
    fun s k j => core_run_refused_add Sys2Proof.core k j s, step_of_not_wf⟩
  obtain ⟨more, hin⟩ | ⟨hin, hf⟩ := hgo
  · rw [step_serve s n more hw hr hin]
    exact stepCommand_of_refuse { s with inputs := more } n g scr e rest hi hb hd
  · rw [step_ready s n hw hr hin hf]
    exact stepCommand_of_refuse s n g scr e rest hi hb hd

/-! ## The raster port and the frame counter -/

/-- A command of the raster port writes neither an instance nor what a port holds nor the host's moves
(41_rasterize.md R108, 43_frame_blink.md R130). -/
theorem exec_raster_frame (s t : State) (i : Instr) (hr : i.isRaster = true) (h : exec i s = .next t) :
    t.screens = s.screens ∧ t.inputs = s.inputs ∧ t.rasterRx = s.rasterRx := by
  obtain ⟨-, ⟨inst, line, ratio, g, scr, r, -, -, -, rfl⟩ | ⟨-, rfl⟩⟩ := exec_raster_next s t i hr h
  · exact ⟨rfl, rfl, rfl⟩
  · exact ⟨rfl, rfl, rfl⟩

/-- Settles O53: the step is that of the request, which is one word, and its meaning writes none of the three. -/
theorem rasterRequestsGoFirst : Obligations.RasterRequestsGoFirst := by
  intro s t w rest hw h
  obtain ⟨-, ⟨w', rest', i, hw', hd, he⟩ | ⟨hnil, -⟩⟩ := step_next s t h
  · obtain ⟨-, rfl⟩ := List.cons.inj (hw.symm.trans hw')
    exact exec_raster_frame _ t i (decode_raster _ _ _ _ hd).1 he
  · rw [hw] at hnil
    cases hnil

/-- A step of a command port leaves the frame counter alone (42_console.md R129). -/
theorem stepCommand_fc (n : Nat) (s t : State) (h : stepCommand n s = .next t) : t.fc = s.fc := by
  obtain ⟨scr', a, rfl⟩ := stepCommand_frame n s t h
  rfl

/-- Settles O25: of the kinds of step only a raster request writes FC, and of these only FRAME_TICK. -/
theorem onlyFrameTickWritesTheFrameCounter : Obligations.OnlyFrameTickWritesTheFrameCounter := by
  intro s t h
  obtain ⟨-, ⟨w, rest, i, -, hd, he⟩ | ⟨-, hconsole⟩⟩ := step_next s t h
  · obtain ⟨-, ⟨inst, line, ratio, g, scr, r, -, -, -, rfl⟩ | ⟨rfl, rfl⟩⟩ :=
      exec_raster_next _ t i (decode_raster _ _ _ _ hd).1 he
    · exact .inl rfl
    · exact .inr ⟨rfl, rest, hd⟩
  · left
    obtain ⟨w, more, -, rfl⟩ | ⟨n, w, more, g, scr, -, -, rfl⟩ | ⟨n, more, -, hs⟩ | ⟨-, n, -, hs⟩ | ⟨-, rfl⟩ := hconsole
    · rfl
    · rfl
    · exact stepCommand_fc n { s with inputs := more } t hs
    · exact stepCommand_fc n s t hs
    · rfl

/-! ## The invariant -/

/-- Settles O55: `step_keeps_inv`, by the kinds of step. -/
theorem everyStepKeepsTheInvariant : Obligations.EveryStepKeepsTheInvariant := step_keeps_inv

/-- Settles O46: the state after power-on meets the invariant, and each plane reads as its draw. -/
theorem constructionGivesThePowerOnState : Obligations.ConstructionGivesThePowerOnState := by
  refine fun c drawChars drawAttrs => ⟨fun hw => if_neg hw, fun hw => ?_⟩
  refine ⟨State.powerOn c drawChars drawAttrs, if_pos hw, State.powerOn_inv c drawChars drawAttrs hw, rfl, rfl,
    by simp [State.powerOn, Config.numInsts], fun n g scr hi => ?_⟩
  obtain ⟨-, rfl⟩ := State.powerOn_instAt c drawChars drawAttrs n g scr hi
  have hread (draw : Nat → Byte) (k : Nat) (hk : k < c.rows g * c.cols g) :
      (Memory.ofDraw (c.rows g * c.cols g) draw).read k = draw k := by
    obtain ⟨-, -, hread⟩ := Memory.ofDraw_spec (c.rows g * c.cols g) draw
    rw [hread, if_pos hk]
  exact ⟨rfl, rfl, rfl, rfl, rfl, rfl, fun k hk => ⟨hread _ k hk, hread _ k hk⟩⟩

/-- The configuration reset is constructed with is admitted. -/
theorem boot_wf : Config.boot.Wf := by decide

/-- Settles O47: reset is power-on with an admitted configuration. -/
theorem resetMeetsTheInvariant : Obligations.ResetMeetsTheInvariant := State.powerOn_inv Config.boot _ _ boot_wf

/-! ## No step faults -/

/-- In a state that meets the invariant the registers and planes of every instance are legal. -/
theorem State.inv_regsOk (s : State) (n : Nat) (g : InstCfg) (scr : Screen) (h : s.Inv)
    (hi : s.instAt n = some (g, scr)) : RegsOk s.cfg g scr := by
  obtain ⟨hcur, hf, hch, hat, -⟩ := State.inv_instAt s n g scr h hi
  exact ⟨hcur, hf, hch, hat⟩

/-- Micro-steps that name only what exists do not fault on an instance in a legal state. -/
theorem State.runMicros_ne_fault (s : State) (n : Nat) (g : InstCfg) (scr : Screen) (ms : List Micro) (f : Fault)
    (hw : s.cfg.InstWf g) (h : RegsOk s.cfg g scr) (hm : ∀ m ∈ ms, m.Ok s.cfg g = true) :
    s.runMicros n g scr ms ≠ .fault f := by
  obtain ⟨scr', hnext, -⟩ := State.runMicros_ok s n g scr ms hw h hm
  rw [hnext]
  exact nofun

/-- A step of a command port does not fault: its micro-steps name only what exists (10_state.md R37). -/
theorem stepCommand_ne_fault (s : State) (n : Nat) (f : Fault) (h : s.Inv) : stepCommand n s ≠ .fault f := by
  cases hi : s.instAt n with
  | none =>
    rw [stepCommand_missing s n hi]
    exact nofun
  | some inst =>
    obtain ⟨g, scr⟩ := inst
    have hwf := (State.instAt_wf s n g scr h.1 hi).2
    have hregs := State.inv_regsOk s n g scr h hi
    cases hb : scr.busy with
    | cons m ms =>
      obtain ⟨-, -, -, -, hbusy⟩ := State.inv_instAt s n g scr h hi
      rw [stepCommand_of_busy s n g scr m ms hi hb]
      exact State.runMicros_ne_fault s n g scr _ f hwf hregs (hb ▸ hbusy)
    | nil =>
      cases hd : decode s.cfg (.cmd n) scr.rx with
      | incomplete =>
        rw [stepCommand_of_incomplete s n g scr hi hb hd]
        exact nofun
      | refuse e rest =>
        rw [stepCommand_of_refuse s n g scr e rest hi hb hd]
        exact nofun
      | instr i rest =>
        rw [stepCommand_of_instr s n g scr i rest hi hb hd]
        exact State.runMicros_ne_fault _ n g _ _ f hwf hregs (microsOf_ok s.cfg g i (decode_cmd _ _ _ _ _ hd).2)

/-- RASTERIZE has a response where the selected font exists (10_state.md R40). -/
theorem rasterResponse_some (c : Config) (g : InstCfg) (scr : Screen) (fc : BitVec 32) (line : Line) (ratio : Byte)
    (f : Font) (hf : c.fonts[scr.fontsel.toNat]? = some f) : ∃ r, rasterResponse c g scr fc line ratio = some r := by
  unfold rasterResponse
  split
  · obtain ⟨px, hpx, -⟩ := linePixels_some c g scr fc (classify c g (line.toNat - g.start)) f hf
    rw [hpx]
    exact ⟨_, rfl⟩
  · exact ⟨_, rfl⟩

/-- A command of the raster port does not fault: the selected font exists. -/
theorem exec_raster_ne_fault (s : State) (i : Instr) (f : Fault) (hr : i.isRaster = true) (h : s.Inv) :
    exec i s ≠ .fault f := by
  cases ha : s.active with
  | cmd n =>
    rw [exec_raster_on_cmd s i n hr ha]
    exact nofun
  | raster =>
    cases i with
    | frameTick =>
      simp only [exec, execFrameTick, ha]
      exact nofun
    | rasterize inst line ratio =>
      cases hi : s.instAt inst.toNat with
      | none =>
        simp only [exec, execRasterize, ha, hi]
        exact nofun
      | some gs =>
        obtain ⟨g, scr⟩ := gs
        obtain ⟨font, hf⟩ := State.inv_font s _ g scr h hi
        obtain ⟨r, hresp⟩ := rasterResponse_some s.cfg g scr s.fc line ratio font hf
        rw [exec_rasterize_of_response s inst line ratio g scr r ha hi hresp]
        exact nofun
    | clear => cases hr
    | setFont v => cases hr
    | setAttr v => cases hr
    | setCursor x y => cases hr
    | showCursor => cases hr
    | hideCursor => cases hr
    | print t => cases hr
    | printAt x y t => cases hr
    | printRight y t => cases hr
    | printCenter y t => cases hr

/-- A step of the raster port does not fault. -/
theorem stepRaster_ne_fault (s : State) (f : Fault) (h : s.Inv) : stepRaster s ≠ .fault f := by
  unfold stepRaster
  cases hd : decode s.cfg .raster s.rasterRx with
  | incomplete => exact nofun
  | refuse e rest => exact nofun
  | instr i rest => exact exec_raster_ne_fault _ i f (decode_raster _ _ _ _ hd).1 (h.congr rfl rfl)

/-- A word that arrives does not fault. -/
theorem deliver_ne_fault (s : State) (p : Port) (w : Word) (f : Fault) : deliver p w s ≠ .fault f := by
  cases p with
  | raster => exact nofun
  | cmd n =>
    cases hi : s.instAt n with
    | none =>
      rw [deliver_missing s n w hi]
      exact nofun
    | some gs =>
      rw [deliver_cmd s n w gs.1 gs.2 hi]
      exact nofun

/-- Settles O57: no kind of step faults in a state that meets the invariant (60_exceptions.md R138). -/
theorem noStepFaults : Obligations.NoStepFaults := by
  intro s f h
  by_cases hr : s.rasterRx = []
  · rw [step_eq_stepConsole s h.1 hr, stepConsole]
    split
    · exact deliver_ne_fault _ _ _ f
    · exact stepCommand_ne_fault _ _ f (h.congr rfl rfl)
    · split
      · exact stepCommand_ne_fault s _ f h
      · exact nofun
  · rw [step_eq_stepRaster s h.1 hr]
    exact stepRaster_ne_fault s f h

end Sys2Proof.Machine
end

section
/-! PROOFS. Runs of granted steps (20_memory.md R57, R62; 42_console.md R127): a console command runs to completion, and
the steps of different command ports commute. -/

namespace Sys2Proof.Machine

/-! ## A command runs to completion -/

/-- A micro-step does not read the command in progress. -/
theorem perform_busy (c : Config) (g : InstCfg) (scr scr' : Screen) (m : Micro) (ms : List Micro)
    (h : perform c g scr m = some scr') : perform c g { scr with busy := ms } m = some { scr' with busy := ms } := by
  obtain ⟨hrx, -⟩ := perform_keeps_port c g scr scr' m h
  rw [perform_port c g scr m scr.rx ms, h, Option.map_some, hrx]

/-- Reading an instance back after its state has been replaced is replacing it by what stands there. -/
theorem State.setScreen_self (s : State) (n : Nat) (g : InstCfg) (scr : Screen) (hi : s.instAt n = some (g, scr)) :
    s.setScreen n scr = s := by
  obtain ⟨-, hs⟩ := (State.instAt_eq_some ..).1 hi
  obtain ⟨hl, rfl⟩ := List.getElem?_eq_some_iff.1 hs
  rw [State.setScreen, List.set_getElem_self]

/-- A step of a granted port whose next micro-step succeeds. -/
theorem step_serve_busy (s : State) (n : Nat) (more : List Input) (g : InstCfg) (scr scr' : Screen) (m : Micro)
    (ms : List Micro) (hw : s.cfg.Wf) (hr : s.rasterRx = []) (hin : s.inputs = .serve n :: more)
    (hi : s.instAt n = some (g, { scr with busy := m :: ms })) (hp : perform s.cfg g scr m = some scr') :
    step s = .next { s.setScreen n { scr' with busy := ms } with inputs := more } :=
  stepPerformsTheNextMicroStep s n more g _ { scr' with busy := m :: ms } m ms hw hr hin hi rfl
    (perform_busy s.cfg g scr scr' m _ hp)

/-- Granted as many steps as micro-steps are in progress, a port performs them in list order and is then free
(42_console.md R127). -/
theorem safeRun_busy (ms : List Micro) (s : State) (n : Nat) (more : List Input) (g : InstCfg) (scr scr' : Screen)
    (hw : s.cfg.Wf) (hr : s.rasterRx = []) (hin : s.inputs = List.replicate ms.length (.serve n) ++ more)
    (hi : s.instAt n = some (g, { scr with busy := ms })) (hb : scr.busy = [])
    (hp : performAll s.cfg g ms scr = some scr') :
    SafeRun ms.length s { s.setScreen n scr' with inputs := more } := by
  induction ms generalizing s scr with
  | nil =>
    obtain rfl : scr = scr' := Option.some_inj.1 hp
    have hfree : ({ scr with busy := [] } : Screen) = scr := by rw [← hb]
    rw [hfree] at hi
    rw [State.setScreen_self s n g scr hi]
    exact (safeRun_zero ..).2 (by rw [← hin.trans (List.nil_append more)])
  | cons m ms ih =>
    rw [performAll] at hp
    split at hp
    · cases hp
    · rename_i scr1 hm
      have hin : s.inputs = .serve n :: (List.replicate ms.length (.serve n) ++ more) := hin
      refine (safeRun_succ ..).2 ⟨_, step_serve_busy s n _ g scr scr1 m ms hw hr hin hi hm, ?_⟩
      have hrest := ih { s.setScreen n { scr1 with busy := ms } with
          inputs := List.replicate ms.length (.serve n) ++ more } scr1 hw hr rfl
        (State.instAt_setScreen_self s n _ g _ hi) ((perform_keeps_port _ _ _ _ _ hm).2.trans hb) hp
      have hset : (s.screens.set n { scr1 with busy := ms }).set n scr' = s.screens.set n scr' := List.set_set ..
      simpa only [State.setScreen, hset] using hrest

/-- With the first of some micro-steps performed, the others are in progress and complete to the same state. -/
theorem State.runMicros_of_performAll (s : State) (n : Nat) (g : InstCfg) (scr scr' : Screen) (ms : List Micro)
    (hb : scr.busy = []) (hp : performAll s.cfg g ms scr = some scr') :
    ∃ scr1, s.runMicros n g scr ms = .next (s.setScreen n { scr1 with busy := ms.tail }) ∧ scr1.busy = [] ∧
      performAll s.cfg g ms.tail scr1 = some scr' := by
  cases ms with
  | nil => exact ⟨scr, rfl, hb, hp⟩
  | cons m ms =>
    rw [performAll] at hp
    split at hp
    · cases hp
    · rename_i scr1 hm
      exact ⟨scr1, State.runMicros_cons s n g scr scr1 m ms hm, (perform_keeps_port _ _ _ _ _ hm).2.trans hb, hp⟩

/-- A granted port that takes a command performs its first micro-step and has the others in progress (log 6). -/
theorem step_serve_command (s : State) (n : Nat) (more : List Input) (g : InstCfg) (scr scr' : Screen) (i : Instr)
    (rest : List Word) (hw : s.cfg.Wf) (hr : s.rasterRx = []) (hin : s.inputs = .serve n :: more)
    (hi : s.instAt n = some (g, scr)) (hb : scr.busy = []) (hd : decode s.cfg (.cmd n) scr.rx = .instr i rest)
    (hp : performAll s.cfg g (microsOf s.cfg g i) { scr with rx := rest } = some scr') :
    ∃ scr1, step s = .next { s with
        inputs := more
        screens := s.screens.set n { scr1 with busy := (microsOf s.cfg g i).tail }
        active := .cmd n } ∧
      scr1.busy = [] ∧ performAll s.cfg g (microsOf s.cfg g i).tail scr1 = some scr' := by
  obtain ⟨scr1, hrun, hb1, hp1⟩ := State.runMicros_of_performAll
    (State.takeCommand { s with inputs := more } n scr rest) n g { scr with rx := rest } scr' (microsOf s.cfg g i) hb hp
  refine ⟨scr1, ?_, hb1, hp1⟩
  rw [step_serve s n more hw hr hin, stepCommand_of_instr { s with inputs := more } n g scr i rest hi hb hd, hrun]
  simp only [State.setScreen, State.takeCommand, List.set_set]

/-- The number of steps a list of micro-steps takes: one for the first, or for none, and one for each of the others. -/
theorem max_one_length_eq (ms : List Micro) : max 1 ms.length = ms.tail.length + 1 := by
  rw [List.length_tail]
  omega

/-- Granted max(1, count) steps, a port with a whole command performs all its micro-steps and is then free
(42_console.md R127; log 6). -/
theorem safeRun_command (s : State) (n : Nat) (more : List Input) (g : InstCfg) (scr scr' : Screen) (i : Instr)
    (rest : List Word) (hw : s.cfg.Wf) (hr : s.rasterRx = [])
    (hin : s.inputs = List.replicate (max 1 (microsOf s.cfg g i).length) (.serve n) ++ more)
    (hi : s.instAt n = some (g, scr)) (hb : scr.busy = []) (hd : decode s.cfg (.cmd n) scr.rx = .instr i rest)
    (hp : performAll s.cfg g (microsOf s.cfg g i) { scr with rx := rest } = some scr') :
    SafeRun (max 1 (microsOf s.cfg g i).length) s
      { s with inputs := more, screens := s.screens.set n scr', active := .cmd n } := by
  rw [max_one_length_eq, List.replicate_succ, List.cons_append] at hin
  obtain ⟨scr1, hstep, hb1, hp1⟩ := step_serve_command s n _ g scr scr' i rest hw hr hin hi hb hd hp
  rw [max_one_length_eq]
  refine (safeRun_succ ..).2 ⟨_, hstep, ?_⟩
  have hi1 := State.instAt_setScreen_self s n scr g { scr1 with busy := (microsOf s.cfg g i).tail } hi
  have hrest := safeRun_busy _ { s with
    inputs := List.replicate (microsOf s.cfg g i).tail.length (.serve n) ++ more
    screens := s.screens.set n { scr1 with busy := (microsOf s.cfg g i).tail }
    active := .cmd n } n more g scr1 scr' hw hr rfl hi1 hb1 hp1
  simpa only [State.setScreen, List.set_set] using hrest

/-- Settles O59: the micro-steps of a decoded command complete from a legal state, and granted steps perform them. -/
theorem consoleCommandsRunToCompletion : Obligations.ConsoleCommandsRunToCompletion := by
  rintro s n more g scr i rest k h hr hi hb hd rfl hin
  have hmicros := microsOf_ok s.cfg g i (decode_cmd _ _ _ _ _ hd).2
  obtain ⟨scr', hp, -⟩ := performAll_ok s.cfg g (State.instAt_wf s n g scr h.1 hi).2 (microsOf s.cfg g i)
    { scr with rx := rest } (State.inv_regsOk s n g scr h hi) hmicros
  exact ⟨scr', hp, safeRun_command s n more g scr scr' i rest h.1 hr hin hi hb hd hp⟩

/-! ## Steps of different ports -/

/-- What a step of a command port does, in every state that agrees on the configuration and the instance: it gives
that instance one and the same new state, and changes nothing else but the record of the port served. -/
theorem stepCommand_effect (n : Nat) (s t : State) (h : stepCommand n s = .next t) :
    ∃ scr a, t = { s.setScreen n scr with active := a } ∧
      ∀ s' : State, s'.cfg = s.cfg → s'.screens[n]? = s.screens[n]? →
        ∃ a', stepCommand n s' = .next { s'.setScreen n scr with active := a' } := by
  obtain ⟨g, scr0, hi, -⟩ := stepCommand_next n s t h
  obtain ⟨-, hget⟩ := (State.instAt_eq_some ..).1 hi
  obtain ⟨scr, a, rfl⟩ := stepCommand_frame n s t h
  refine ⟨scr, a, rfl, fun s' hc hs => ?_⟩
  obtain ⟨t', hstep, hsame⟩ := stepCommand_local s _ s' n h hc hs
  obtain ⟨scr', a', rfl⟩ := stepCommand_frame n s' t' hstep
  have hscr : scr' = scr := by
    obtain ⟨hl, -⟩ := List.getElem?_eq_some_iff.1 hget
    obtain ⟨hl', -⟩ := List.getElem?_eq_some_iff.1 (hs.trans hget)
    simpa [List.getElem?_set_self, hl, hl'] using hsame
  exact ⟨a', hscr ▸ hstep⟩

/-- A safe run of two steps. -/
theorem safeRun_two (s t : State) : SafeRun 2 s t ↔ ∃ s', step s = .next s' ∧ step s' = .next t := by
  simp only [safeRun_succ, safeRun_zero, exists_eq_right]

/-- A safe run in which two command ports are granted a step each. -/
theorem safeRun_serve_serve (s t : State) (i j : Nat) (more : List Input) (hw : s.cfg.Wf) (hr : s.rasterRx = [])
    (hin : s.inputs = .serve i :: .serve j :: more) :
    SafeRun 2 s t ↔ ∃ s', stepCommand i { s with inputs := .serve j :: more } = .next s' ∧
      stepCommand j { s' with inputs := more } = .next t := by
  rw [safeRun_two, step_serve s i _ hw hr hin]
  refine exists_congr fun s' => and_congr_right fun h => ?_
  obtain ⟨⟨hc, -, hrx, -, hin', -⟩, -⟩ := consoleStepsTouchOnlyTheirInstance _ s' s' i h
  rw [step_serve s' j more (hc ▸ hw) (hrx.trans hr) hin']

/-- Settles O60: each step replaces the state of its own instance, by a state that the other step has no part in. -/
theorem stepsOfDifferentPortsCommute : Obligations.StepsOfDifferentPortsCommute := by
  intro s t i j more hij hr hin hrun
  have hw : s.cfg.Wf := by
    obtain ⟨s1, h1, -⟩ := (safeRun_two s t).1 hrun
    exact (step_next s s1 h1).1
  obtain ⟨s1, h1, h2⟩ := (safeRun_serve_serve s t i j more hw hr hin).1 hrun
  obtain ⟨scri, a, rfl, hi⟩ := stepCommand_effect i _ s1 h1
  obtain ⟨scrj, b, rfl, hj⟩ := stepCommand_effect j _ t h2
  obtain ⟨a', hfirst⟩ := hj { s with inputs := .serve i :: more } rfl (List.getElem?_set_ne hij).symm
  obtain ⟨b', hsecond⟩ := hi { s.setScreen j scrj with inputs := more, active := a' } rfl
    (List.getElem?_set_ne hij.symm)
  refine ⟨_, (safeRun_serve_serve { s with inputs := .serve j :: .serve i :: more } _ j i more hw hr rfl).2
    ⟨_, hfirst, hsecond⟩, ?_⟩
  simp only [State.setScreen, List.set_comm _ _ hij]

end Sys2Proof.Machine
end

section
/-! PROOFS. The raster port (40_region_mapper.md R89, R91; 41_rasterize.md R103 to R107; 30_encoding.md R83;
43_frame_blink.md R130): the bands, the pixel mux, the attribute decode, the information words and FRAME_TICK. -/

namespace Sys2Proof.Machine

open Sys2Proof.Laws

/-! ## The bands -/

/-- The top border band is the first VB lines (40_region_mapper.md R89). -/
theorem classify_eq_topBorder_iff (c : Config) (g : InstCfg) (l : Nat) : classify c g l = .topBorder ↔ l < g.vb := by
  unfold classify
  split
  · simp [*]
  · split <;> simp [*]

/-- The bottom border band is the last VB lines (40_region_mapper.md R89). -/
theorem classify_eq_bottomBorder_iff (c : Config) (g : InstCfg) (l : Nat) (h : 2 * g.vb < g.height) :
    classify c g l = .bottomBorder ↔ ¬l < g.height - g.vb := by
  unfold classify
  split
  · simp only [reduceCtorEq, false_iff]
    omega
  · split
    · simp only [true_iff]
      omega
    · simp only [reduceCtorEq, false_iff]
      omega

/-- Of the numbers below n, k are below k. -/
theorem countP_range_lt {n k : Nat} (h : k ≤ n) (p : Nat → Bool) (hp : ∀ l, p l = true ↔ l < k) :
    (List.range n).countP p = k := by
  obtain ⟨d, rfl⟩ := Nat.exists_eq_add_of_le h
  have hlow : (List.range k).countP p = (List.range k).length :=
    List.countP_eq_length.2 fun l hl => (hp l).2 (List.mem_range.1 hl)
  have hhigh : ((List.range d).map (k + ·)).countP p = 0 := by
    refine List.countP_eq_zero.2 fun l hl => ?_
    obtain ⟨j, -, rfl⟩ := List.mem_map.1 hl
    rw [hp]
    omega
  rw [List.range_add, List.countP_append, hlow, hhigh, List.length_range, Nat.add_zero]

/-- Of the numbers below n, n - k are not below k. -/
theorem countP_range_not_lt {n k : Nat} (h : k ≤ n) (p : Nat → Bool) (hp : ∀ l, p l = true ↔ ¬l < k) :
    (List.range n).countP p = n - k := by
  have hnot : (List.range n).countP (fun l => decide ¬p l = true) = k :=
    countP_range_lt h _ fun l => by rw [decide_eq_true_iff, hp, not_not]
  have hall := List.length_eq_countP_add_countP p (l := List.range n)
  rw [List.length_range] at hall
  omega

/-- The line of a row and sub-row shows them (40_region_mapper.md R89, R91). -/
theorem classify_row_sub (c : Config) (g : InstCfg) (row sub : Nat) (h2 : c.WF2 g) (hrow : row < c.rows g)
    (hsub : sub < c.gh) : classify c g (g.vb + row * c.gh + sub) = .active row sub := by
  obtain ⟨hpos, hmod⟩ := h2
  have hlines : c.rows g * c.gh = g.height - 2 * g.vb := Nat.div_mul_cancel (Nat.dvd_of_mod_eq_zero hmod)
  have hlast : row * c.gh + sub < c.rows g * c.gh :=
    calc row * c.gh + sub < (row + 1) * c.gh := by rw [Nat.add_mul, Nat.one_mul]; omega
      _ ≤ c.rows g * c.gh := Nat.mul_le_mul_right _ hrow
  have hoff : g.vb + row * c.gh + sub - g.vb = row * c.gh + sub := by omega
  obtain ⟨hr, hs⟩ := div_mod_of_linear (row := row) (col := sub) hsub rfl
  exact (classify_eq_active_iff ..).2 ⟨by omega, hoff ▸ hr, hoff ▸ hs⟩

/-- Settles O11: the bands are the lines below VB, from HEIGHT - VB on, and the rows of GH lines between. -/
theorem borderBandsAndRowsPartitionTheBand : Obligations.BorderBandsAndRowsPartitionTheBand := by
  intro c g hw hg
  obtain ⟨-, hrows, -⟩ := Config.dims_of_wf hw hg
  obtain ⟨⟨-, ⟨hgh, -⟩, -⟩, -, -, -, hinsts⟩ := hw
  obtain ⟨-, h2, -⟩ := hinsts g hg
  have hactive (row sub : Nat) := classify_row_sub c g row sub h2
  obtain ⟨hpos, hmod⟩ := h2
  have hlines : c.rows g * c.gh = g.height - 2 * g.vb := Nat.div_mul_cancel (Nat.dvd_of_mod_eq_zero hmod)
  have hlast : g.height - g.vb - 1 = g.vb + (c.rows g - 1) * c.gh + (c.gh - 1) := by
    rw [Nat.sub_mul, Nat.one_mul, hlines]
    have hle : c.gh ≤ c.rows g * c.gh := Nat.le_mul_of_pos_left c.gh hrows
    omega
  refine ⟨?_, ?_, ?_, ?_, hactive⟩
  · exact countP_range_lt (by omega) _ fun l => by rw [beq_iff_eq, classify_eq_topBorder_iff]
  · rw [countP_range_not_lt (Nat.sub_le g.height g.vb) _ fun l => by
      rw [beq_iff_eq, classify_eq_bottomBorder_iff c g l hpos]]
    omega
  · simpa using hactive 0 0 hrows hgh
  · rw [hlast]
    exact hactive _ _ (by omega) (by omega)

/-! ## The pixel mux -/

/-- Inside the horizontal borders the mux exchanges foreground and background where the cursor is shown
(41_rasterize.md R105, R107); the glyph bit is a bit of the row byte in the font storage (20_memory.md R49). -/
theorem activePixel_of_rowByte (c : Config) (g : InstCfg) (scr : Screen) (fc : BitVec 32) (f : Font)
    (row sub p : Nat) (rowByte att : Byte) (hleft : g.hb ≤ p) (hright : p < g.hres - g.hb)
    (hrow : f.data[glyphEntry f (scr.chars.read (cellIndex c g row ((p - g.hb) / c.gw))) * c.gh + sub]? = some rowByte)
    (hatt : scr.attrs.read (cellIndex c g row ((p - g.hb) / c.gw)) = att) :
    activePixel c g scr fc f row sub p =
      if scr.curvis = true ∧ scr.cury.toNat = row ∧ scr.curx.toNat = (p - g.hb) / c.gw ∧
          fc.toNat % c.blinkCycle < c.blinkCycle / 2 then
        (if rowByte.getLsbD (7 - (p - g.hb) % c.gw) then attrBgOf c att else attrFgOf c att)
      else
        (if rowByte.getLsbD (7 - (p - g.hb) % c.gw) then attrFgOf c att else attrBgOf c att) := by
  have hbyte : fontRow c f (glyphEntry f (scr.chars.read (cellIndex c g row ((p - g.hb) / c.gw)))) sub = rowByte := by
    rw [fontRow, hrow, Option.getD_some]
  rw [activePixel, if_neg (by omega)]
  simp only [cellRead, glyphBit, hbyte, hatt, cursorHere, blinkOn, Bool.and_eq_true, decide_eq_true_eq, and_assoc]

/-- Settles O16: the row byte is in the font storage (O17), and the pixel of the response is the mux's. -/
theorem activePixelIsTheGlyphBitThroughTheMux : Obligations.ActivePixelIsTheGlyphBitThroughTheMux := by
  intro s inst line ratio g scr p hinv ha hi hlo htop hbottom hleft hright l col ch att
  obtain ⟨f, hf⟩ := State.inv_font s _ g scr hinv hi
  have hgh : 0 < s.cfg.gh := by
    obtain ⟨⟨-, ⟨hgh, -⟩, -⟩, -⟩ := hinv.1
    exact hgh
  obtain ⟨-, -, -, hstored⟩ := codesOutsideTheFontUseEntryZero s.cfg f ch hinv.1 (List.mem_of_getElem? hf)
  have hrow := List.getElem?_eq_getElem (hstored (l % s.cfg.gh) (Nat.mod_lt l hgh))
  refine ⟨_, f, _, exec_rasterize_eq_ownedResponse s inst line ratio g scr f ha hi hf hlo (by omega), hf, hrow, ?_⟩
  rw [ownedResponse_pixel _ _ _ _ _ _ _ p (by omega), linePixel, if_pos ⟨⟨htop, hbottom⟩, hleft, hright⟩]
  exact congrArg some (activePixel_of_rowByte s.cfg g scr s.fc f _ _ p _ att hleft hright hrow rfl)

/-! ## Attributes -/

/-- An entry inside a list is what reading it with a default gives. -/
theorem getElem?_eq_some_getD {l : List Byte} {k : Nat} (h : k < l.length) : l[k]? = some (l[k]?.getD 0) := by
  rw [List.getElem?_eq_getElem h, Option.getD_some]

/-- A function given as a table has a value for every attribute (00_scope.md R16). -/
theorem lt_length_of_totalTable {t : List Byte} (a : Byte) (h : totalTable (some t) = true) : a.toNat < t.length := by
  have hlen : t.length = 256 := beq_iff_eq.1 h
  exact hlen ▸ a.isLt

/-- Settles O18: the palette has an entry for each nibble, and a table one for each attribute. -/
theorem everyAttributeHasDefinedPixelValues : Obligations.EveryAttributeHasDefinedPixelValues := by
  rintro c a ⟨-, ⟨-, -, -, hpalette, hfg, hbg⟩, -⟩
  have hlow : (a.extractLsb' 0 4).toNat = a.toNat % 16 := by rw [toNat_field]; omega
  have hhigh : (a.extractLsb' 4 4).toNat = a.toNat / 16 := by rw [toNat_field]; omega
  refine ⟨fun h => ?_, fun h => ?_, fun t h => ?_, fun t h => ?_⟩
  · simp only [attrFgOf, h, paletteAt, hlow]
    exact getElem?_eq_some_getD (by omega)
  · simp only [attrBgOf, h, paletteAt, hhigh]
    exact getElem?_eq_some_getD (by omega)
  · simp only [attrFgOf, h]
    exact getElem?_eq_some_getD (lt_length_of_totalTable a (h ▸ hfg))
  · simp only [attrBgOf, h]
    exact getElem?_eq_some_getD (lt_length_of_totalTable a (h ▸ hbg))

/-! ## Information words -/

/-- RI0 as a number: OWNED, seven zeros, REPEAT, PIXEL_COUNT (30_encoding.md R83). -/
theorem RasterInfo.word0_toNat (i : RasterInfo) :
    i.word0.toNat = (i.owned.toNat * 2 ^ 7 * 2 ^ 8 + i.rep.toNat) * 2 ^ 16 + i.pixelCount.toNat := by
  simp only [RasterInfo.word0, toNat_append_eq, BitVec.toNat_ofBool, BitVec.toNat_ofNat, Nat.zero_mod, Nat.add_zero]

/-- RI1 as a number: START_OFFSET alone (30_encoding.md R83). -/
theorem RasterInfo.word1_toNat (i : RasterInfo) : i.word1.toNat = i.startOffset.toNat := by
  simp only [RasterInfo.word1, toNat_append_eq, BitVec.toNat_ofNat, Nat.zero_mod, Nat.zero_mul, Nat.zero_add]

/-- The top bit of RI0 is OWNED (30_encoding.md R83). -/
theorem RasterInfo.word0_owned (i : RasterInfo) : i.word0.getLsbD 31 = i.owned := by
  simp only [RasterInfo.word0, BitVec.getLsbD_append]
  cases i.owned <;> rfl

/-- Settles O22: each field is read off the number its word is. -/
theorem responseWordsHoldTheirFields : Obligations.ResponseWordsHoldTheirFields := by
  intro i
  have hrep := i.rep.isLt
  have hcount := i.pixelCount.isLt
  have hoffset := i.startOffset.isLt
  refine ⟨i.word0_owned, (field_eq_zero ..).2 ?_, BitVec.eq_of_toNat_eq ?_, BitVec.eq_of_toNat_eq ?_,
    (field_eq_zero ..).2 ?_, BitVec.eq_of_toNat_eq ?_⟩
  · rw [i.word0_toNat]; omega
  · rw [toNat_field, i.word0_toNat]; omega
  · rw [toNat_field, i.word0_toNat]; omega
  · rw [i.word1_toNat]; omega
  · rw [toNat_field, i.word1_toNat]; omega

/-! ## FRAME_TICK -/

/-- The meaning of FRAME_TICK (43_frame_blink.md R130). -/
theorem exec_frameTick (s : State) (ha : s.active = .raster) : exec .frameTick s = .next { s with fc := s.fc + 1 } := by
  simp only [exec, execFrameTick, ha]

/-- Settles O24. -/
theorem frameTickIncrementsTheFrameCounterOnly : Obligations.FrameTickIncrementsTheFrameCounterOnly :=
  fun s ha => ⟨_, exec_frameTick s ha, rfl, BitVec.toNat_add s.fc 1⟩

end Sys2Proof.Machine
end

section
/-! PROOFS. The console commands (42_console.md R112 to R128): what each does in the step that takes it, and the effect
and the frame of the whole command. -/

namespace Sys2Proof.Machine

/-! ## The step that takes a command -/

/-- A console command with no micro-step performs nothing (log 6). -/
theorem exec_console_nil (s : State) (n : Nat) (g : InstCfg) (scr : Screen) (i : Instr) (ha : s.active = .cmd n)
    (hi : s.instAt n = some (g, scr)) (hr : i.isRaster = false) (hv : i.valuesExist s.cfg = true)
    (hms : microsOf s.cfg g i = []) : exec i s = .next (s.setScreen n { scr with busy := [] }) := by
  rw [exec_console s n g scr i ha hi hr hv, hms, State.runMicros]

/-- A console command performs its first micro-step and leaves the others as the command in progress (log 6). -/
theorem exec_console_cons (s : State) (n : Nat) (g : InstCfg) (scr scr' : Screen) (i : Instr) (m : Micro)
    (ms : List Micro) (ha : s.active = .cmd n) (hi : s.instAt n = some (g, scr)) (hr : i.isRaster = false)
    (hv : i.valuesExist s.cfg = true) (hms : microsOf s.cfg g i = m :: ms) (hp : perform s.cfg g scr m = some scr') :
    exec i s = .next (s.setScreen n { scr' with busy := ms }) := by
  rw [exec_console s n g scr i ha hi hr hv, hms, State.runMicros_cons s n g scr scr' m ms hp]

/-- A console command of one micro-step is over in the step that takes it. -/
theorem exec_console_single (s : State) (n : Nat) (g : InstCfg) (scr scr' : Screen) (i : Instr) (m : Micro)
    (ha : s.active = .cmd n) (hi : s.instAt n = some (g, scr)) (hb : scr.busy = []) (hr : i.isRaster = false)
    (hv : i.valuesExist s.cfg = true) (hms : microsOf s.cfg g i = [m]) (hp : perform s.cfg g scr m = some scr') :
    exec i s = .next (s.setScreen n scr') := by
  have hfree : ({ scr' with busy := [] } : Screen) = scr' := by
    rw [← (perform_keeps_port _ _ _ _ _ hp).2.trans hb]
  rw [exec_console_cons s n g scr scr' i m [] ha hi hr hv hms hp, hfree]

/-- Settles O35: the first micro-step succeeds, as all of them name only what exists. -/
theorem everyConsoleCommandStartsItsMicroSteps : Obligations.EveryConsoleCommandStartsItsMicroSteps := by
  intro s n g scr i hw ha hi hok hr hv
  refine ⟨exec_console_nil s n g scr i ha hi hr hv, fun m ms hms => ?_⟩
  obtain ⟨hcur, hf, hch, hat, -⟩ := hok
  have hm : m.Ok s.cfg g = true := microsOf_ok s.cfg g i hv m (hms ▸ List.mem_cons_self)
  obtain ⟨scr', hp, -⟩ := perform_ok s.cfg g scr m (State.instAt_wf s n g scr hw hi).2 ⟨hcur, hf, hch, hat⟩ hm
  exact ⟨scr', hp, exec_console_cons s n g scr scr' i m ms ha hi hr hv hms hp⟩

/-- Settles O28: the one micro-step writes FONTSEL. -/
theorem setFontWritesTheFontSelectionOnly : Obligations.SetFontWritesTheFontSelectionOnly :=
  fun s n g scr _ ha hi hb hv => exec_console_single s n g scr _ _ _ ha hi hb rfl (decide_eq_true hv) rfl rfl

/-- Settles O29: the one micro-step writes DEFATTR. -/
theorem setAttrWritesTheDefaultAttributeOnly : Obligations.SetAttrWritesTheDefaultAttributeOnly :=
  fun s n g scr _ ha hi hb => exec_console_single s n g scr _ _ _ ha hi hb rfl rfl rfl rfl

/-- Settles O31: the one micro-step writes CURVIS. -/
theorem showAndHideWriteTheVisibilityFlagOnly : Obligations.ShowAndHideWriteTheVisibilityFlagOnly :=
  fun s n g scr ha hi hb =>
    ⟨exec_console_single s n g scr _ _ _ ha hi hb rfl rfl rfl rfl,
      exec_console_single s n g scr _ _ _ ha hi hb rfl rfl rfl rfl⟩

/-- Settles O30: the one micro-step is SetCursor. -/
theorem setCursorWritesTheClampedPositionOnly : Obligations.SetCursorWritesTheClampedPositionOnly := by
  intro s n g scr x y hw ha hi hb
  obtain ⟨⟨-, hcols⟩, -, hrows⟩ := Config.dims_of_wf hw (State.instAt_wf s n g scr hw hi).1
  obtain ⟨cx, cy, hp, hx, hy⟩ := perform_setCursor s.cfg g scr x.toNat y.toNat hcols hrows
  exact ⟨cx, cy, exec_console_single s n g scr _ _ _ ha hi hb rfl rfl rfl hp, hx, hy⟩

/-- The micro-steps of CLEAR start with the cell at row 0, column 0 (42_console.md R114). -/
theorem clearMicros_eq_cons (c : Config) (g : InstCfg) (hcols : 1 ≤ c.cols g) (hrows : 1 ≤ c.rows g) :
    clearMicros c g = .clearCell 0 0 :: (clearMicros c g).tail := by
  obtain ⟨k, hk⟩ := Nat.exists_eq_add_of_le' hcols
  obtain ⟨r, hr⟩ := Nat.exists_eq_add_of_le' hrows
  simp [clearMicros, hk, hr, List.range_succ_eq_map]

/-- Settles O32: the first micro-step is the write of cell 0. -/
theorem clearPerformsItsFirstMicroStep : Obligations.ClearPerformsItsFirstMicroStep := by
  intro s n g scr hw ha hi
  obtain ⟨⟨hcols, -⟩, hrows, -⟩ := Config.dims_of_wf hw (State.instAt_wf s n g scr hw hi).1
  have hp := (cellWrite_eq_some s.cfg g scr _ 0 0 spaceCode scr.defattr).2 ⟨hrows, hcols, rfl⟩
  have hindex : cellIndex s.cfg g 0 0 = 0 := by rw [cellIndex, Nat.zero_mul]
  rw [hindex] at hp
  exact exec_console_cons s n g scr _ .clear _ _ ha hi rfl rfl (clearMicros_eq_cons s.cfg g hcols hrows) hp

/-- Settles O33: the first micro-step is the PutChar of the first character, if there is one. -/
theorem printPerformsItsFirstCharacter : Obligations.PrintPerformsItsFirstCharacter := by
  intro s n g scr ch t ha hi hcur
  have hp := putChar_eq s.cfg g scr ch hcur
  exact ⟨exec_console_nil s n g scr _ ha hi rfl rfl rfl, _, hp,
    exec_console_cons s n g scr _ _ _ _ ha hi rfl rfl rfl hp⟩

/-! ### Aligned texts -/

/-- PRINT_CENTER is PRINT_AT of the text truncated on both sides, from column (COLS - M) div 2 on (42_console.md
R126). -/
theorem printCenterMicros_eq (c : Config) (g : InstCfg) (y : Nat) (t : List Byte) :
    printCenterMicros c g y t =
      printAtMicros ((c.cols g - min t.length (c.cols g)) / 2) y
        ((t.drop ((t.length - c.cols g) / 2)).take (c.cols g)) := by
  obtain ⟨hlen, htext, -⟩ := centerText_spec (c.cols g) t
  rw [printCenterMicros, centerStart, hlen, htext]

/-- Settles O34: each of the three is a PRINT_AT, whose first micro-step positions the cursor. -/
theorem positionedPrintsMoveTheCursorFirst : Obligations.PositionedPrintsMoveTheCursorFirst := by
  intro s n g scr x y t hw ha hi w
  obtain ⟨⟨hcols1, hcols⟩, -, hrows⟩ := Config.dims_of_wf hw (State.instAt_wf s n g scr hw hi).1
  have hpos (x : Nat) := setCursorClamped_toNat s.cfg g scr x y.toNat hcols hrows
  have hexec (i : Instr) (x : Nat) (t : List Byte) (hr : i.isRaster = false) (hv : i.valuesExist s.cfg = true)
      (hms : microsOf s.cfg g i = printAtMicros x y.toNat t) :=
    exec_console_cons s n g scr _ i _ _ ha hi hr hv hms rfl
  refine ⟨_, _, _, _, (hpos x.toNat).1, (hpos x.toNat).2, (hpos (w - min t.length w)).1,
    (hpos ((w - min t.length w) / 2)).1.trans ?_, ?_, ?_, ?_⟩
  · omega
  · exact hexec (.printAt x y t) _ _ rfl rfl rfl
  · exact hexec (.printRight y t) _ _ rfl rfl (printRightMicros_eq s.cfg g y.toNat t)
  · exact hexec (.printCenter y t) _ _ rfl rfl (printCenterMicros_eq s.cfg g y.toNat t)

/-! ## Whole commands -/

/-- Settles O37: CLEAR fills both planes over the cells of the buffer. -/
theorem clearResetsEveryCellAndTheCursor : Obligations.ClearResetsEveryCellAndTheCursor := by
  intro c g scr hw hg hchars hattrs
  have houtside (a : Nat) (ha : c.rows g * c.cols g ≤ a) : a ∉ cellIndexes c g (bufferCells c g) := by
    intro hmem
    obtain ⟨⟨r, k⟩, hcell, rfl⟩ := List.mem_map.1 hmem
    obtain ⟨hr, hk⟩ := (mem_bufferCells c g r k).1 hcell
    exact absurd (cellIndex_lt c g r k hr hk) (Nat.not_lt.2 ha)
  refine ⟨_, _, performAll_clear c g scr, fun r k hr hk => ⟨?_, ?_⟩, fun a ha => ⟨?_, ?_⟩⟩
  · exact Memory.read_fill_buffer c g scr.chars spaceCode r k hchars hr hk
  · exact Memory.read_fill_buffer c g scr.attrs scr.defattr r k hattrs hr hk
  · rw [Memory.read_fill _ _ _ _ hchars, if_neg (houtside a ha)]
  · rw [Memory.read_fill _ _ _ _ hattrs, if_neg (houtside a ha)]

/-- Settles O39: the micro-steps of the one are those of the others in a row. -/
theorem printsComposeAndPrintAtIsSetCursorThenPrint : Obligations.PrintsComposeAndPrintAtIsSetCursorThenPrint := by
  intro c g scr a b x y
  have hprint : microsOf c g (.print (a ++ b)) = microsOf c g (.print a) ++ microsOf c g (.print b) := List.map_append
  exact ⟨by rw [hprint, performAll_append], performAll_append c g [.setCursor x.toNat y.toNat] (printMicros a) scr⟩

/-- CLEAR has one micro-step per cell and one for the cursor (42_console.md R127). -/
theorem clearMicros_length (c : Config) (g : InstCfg) : (clearMicros c g).length = c.rows g * c.cols g + 1 := by
  simp [clearMicros, List.length_flatMap]

/-- A PRINT_AT has one micro-step per character and one for the cursor (42_console.md R127). -/
theorem printAtMicros_length (x y : Nat) (t : List Byte) : (printAtMicros x y t).length = t.length + 1 := by
  rw [printAtMicros, List.length_cons, printMicros, List.length_map]

/-- Settles O43: the lists' lengths, those of the aligned prints through the length of their truncated texts. -/
theorem microStepCounts : Obligations.MicroStepCounts := by
  intro c g x y v t
  refine ⟨clearMicros_length c g, rfl, rfl, rfl, rfl, rfl, List.length_map .., printAtMicros_length _ _ t, ?_, ?_⟩
  · obtain ⟨hlen, -⟩ := rightText_spec (c.cols g) t
    exact (printAtMicros_length ..).trans (congrArg (· + 1) hlen)
  · obtain ⟨hlen, -⟩ := centerText_spec (c.cols g) t
    exact (printAtMicros_length ..).trans (congrArg (· + 1) hlen)

/-! ### A text inside one row -/

/-- Bytes written from position k on that do not reach the end of the plane stand at k, k + 1, and so on. -/
theorem Memory.read_writeRing_inside (m : Memory) (cells k j : Nat) (vs : List Byte) (v : Byte) (hm : m.Wf)
    (hfit : k + vs.length ≤ cells) (hj : vs[j]? = some v) : (m.writeRing cells k vs).read (k + j) = v := by
  have hplace (j : Nat) (hlt : j < vs.length) : (k + j) % cells = k + j := Nat.mod_eq_of_lt (by omega)
  obtain ⟨hlt, -⟩ := List.getElem?_eq_some_iff.1 hj
  rw [← hplace j hlt]
  refine Memory.read_writeRing_last m cells k j vs v hm hj fun j' hj' hlt' => ?_
  rw [hplace j hlt, hplace j' hlt']
  omega

/-- Every address that is not one of these reads as before. -/
theorem Memory.read_writeRing_outside (m : Memory) (cells k a : Nat) (vs : List Byte) (hfit : k + vs.length ≤ cells)
    (ha : ¬(k ≤ a ∧ a < k + vs.length)) : (m.writeRing cells k vs).read a = m.read a := by
  refine Memory.read_writeRing_other m cells k a vs fun j hlt => ?_
  rw [Nat.mod_eq_of_lt (by omega)]
  omega

/-- The whole effect of a PRINT_AT whose text does not reach past its row: the text stands in the clamped row from its
start on, and the cursor behind it (42_console.md R122, R123). -/
theorem performAll_printAt_row (c : Config) (g : InstCfg) (scr : Screen) (start y : Nat) (t : List Byte) (hw : c.Wf)
    (hg : g ∈ c.insts) (hchars : scr.chars.Wf) (hattrs : scr.attrs.Wf) (hfit : start + t.length ≤ c.cols g) :
    ∃ (cs as : Memory) (cx cy : Byte),
      performAll c g (printAtMicros start y t) scr =
        some { scr with chars := cs, attrs := as, curx := cx, cury := cy } ∧
      (∀ k, k < t.length → some (cs.read (clampY c g y * c.cols g + start + k)) = t[k]? ∧
        as.read (clampY c g y * c.cols g + start + k) = scr.defattr) ∧
      (∀ a, ¬(clampY c g y * c.cols g + start ≤ a ∧ a < clampY c g y * c.cols g + start + t.length) →
        cs.read a = scr.chars.read a ∧ as.read a = scr.attrs.read a) ∧
      cy.toNat = (clampY c g y * c.cols g + clampX c g start + t.length) % (c.rows g * c.cols g) / c.cols g ∧
      cx.toNat = (clampY c g y * c.cols g + clampX c g start + t.length) % (c.rows g * c.cols g) % c.cols g := by
  obtain ⟨⟨hcols, -⟩, hrows, -⟩ := Config.dims_of_wf hw hg
  obtain ⟨cx, cy, hall, hx, hlin⟩ := performAll_printAtMicros c g scr start y t hw hg
  have hrow : clampY c g y * c.cols g + c.cols g ≤ c.rows g * c.cols g :=
    calc clampY c g y * c.cols g + c.cols g = (clampY c g y + 1) * c.cols g := by rw [Nat.add_mul, Nat.one_mul]
      _ ≤ c.rows g * c.cols g := Nat.mul_le_mul_right _ (by rw [clampY]; omega)
  have hstart : t.length = 0 ∨ clampX c g start = start := by rw [clampX]; omega
  have hin : clampY c g y * c.cols g + clampX c g start + t.length ≤ c.rows g * c.cols g := by
    have hclamp : clampX c g start ≤ start := Nat.min_le_left ..
    omega
  have hatts : (t.map fun _ => scr.defattr).length = t.length := List.length_map ..
  refine ⟨_, _, cx, cy, hall, fun k hk => ?_, fun a ha => ⟨?_, ?_⟩, div_mod_of_linear hx hlin⟩
  · rw [hstart.resolve_left (by omega)] at hin ⊢
    have hch := List.getElem?_eq_getElem hk
    refine ⟨hch ▸ congrArg some ?_, ?_⟩
    · exact Memory.read_writeRing_inside _ _ _ k t _ hchars hin hch
    · exact Memory.read_writeRing_inside _ _ _ k _ _ hattrs (hatts ▸ hin)
        (by rw [List.getElem?_map, hch, Option.map_some])
  · exact Memory.read_writeRing_outside _ _ _ a t hin (by omega)
  · exact Memory.read_writeRing_outside _ _ _ a _ (hatts ▸ hin) (by omega)

/-- PRINT_RIGHT and PRINT_CENTER are a PRINT_AT of M = min(L, COLS) characters of the text (42_console.md R124,
R126). -/
theorem microsOf_aligned (c : Config) (g : InstCfg) (y : Byte) (t : List Byte) (right : Bool) :
    ∃ text,
      microsOf c g (if right then .printRight y t else .printCenter y t) =
        printAtMicros
          (if right then c.cols g - min t.length (c.cols g) else (c.cols g - min t.length (c.cols g)) / 2)
          y.toNat text ∧
      text.length = min t.length (c.cols g) ∧
      ∀ k, k < min t.length (c.cols g) →
        text[k]? = t[(if right then t.length - min t.length (c.cols g)
          else (t.length - min t.length (c.cols g)) / 2) + k]? := by
  cases right with
  | true =>
    obtain ⟨hlen, -, hget⟩ := rightText_spec (c.cols g) t
    exact ⟨rightText (c.cols g) t, congrArg (fun n => printAtMicros (c.cols g - n) y.toNat _) hlen, hlen, hget⟩
  | false =>
    obtain ⟨hlen, -, hget⟩ := centerText_spec (c.cols g) t
    exact ⟨centerText (c.cols g) t, congrArg (fun n => printAtMicros ((c.cols g - n) / 2) y.toNat _) hlen, hlen, hget⟩

/-- Settles O41: either command is a PRINT_AT of M characters of the text that fit into the row from their start on. -/
theorem alignedPrintsPlaceTheirText : Obligations.AlignedPrintsPlaceTheirText := by
  intro c g scr y t right hw hg hchars hattrs w m start dropped row stop
  obtain ⟨text, hmicros, hlen, hget⟩ := microsOf_aligned c g y t right
  have hm : m ≤ w := Nat.min_le_right ..
  have hfit : start + text.length ≤ w := by
    rw [hlen]
    change (if right then w - m else (w - m) / 2) + m ≤ w
    split <;> omega
  obtain ⟨cs, as, cx, cy, hall, hcells, hothers, hy, hx⟩ :=
    performAll_printAt_row c g scr start y.toNat text hw hg hchars hattrs hfit
  rw [hlen] at hcells hothers hy hx
  refine ⟨cs, as, cx, cy, hmicros ▸ hall, fun k hk => ?_, hothers, hy, hx⟩
  obtain ⟨hch, hatt⟩ := hcells k hk
  exact ⟨hch.trans (hget k hk), hatt⟩

/-- A cursor at linear position 0 is at (0, 0). -/
theorem eq_zero_of_linear_zero {cx cy : Byte} {w : Nat} (hx : cx.toNat < w) (h : cy.toNat * w + cx.toNat = 0) :
    cx = 0 ∧ cy = 0 := by
  obtain ⟨hrow, hcol⟩ := Nat.add_eq_zero_iff.1 h
  have hcy : cy.toNat = 0 := (Nat.mul_eq_zero.1 hrow).resolve_right (by omega)
  exact ⟨BitVec.eq_of_toNat_eq hcol, BitVec.eq_of_toNat_eq hcy⟩

/-- Settles O42: the micro-steps are those of a PRINT_AT whose position clamps to the last cell, from where the cursor
wraps. -/
theorem printAfterClampingLandsInTheLastCell : Obligations.PrintAfterClampingLandsInTheLastCell := by
  intro c g scr x y ch hw hg hchars hattrs hx hy
  obtain ⟨⟨hcols, -⟩, hrows, -⟩ := Config.dims_of_wf hw hg
  obtain ⟨cx, cy, hall, hcx, hlin⟩ := performAll_printAtMicros c g scr x.toNat y.toNat [ch] hw hg
  have hlast : clampY c g y.toNat * c.cols g + clampX c g x.toNat = c.rows g * c.cols g - 1 := by
    have hle : c.cols g ≤ c.rows g * c.cols g := Nat.le_mul_of_pos_left _ hrows
    rw [clampX, clampY, Nat.min_eq_right (by omega), Nat.min_eq_right (by omega), Nat.sub_mul, Nat.one_mul]
    omega
  have hpos : 0 < c.rows g * c.cols g := Nat.mul_pos hrows hcols
  have hfit (v : Byte) : c.rows g * c.cols g - 1 + [v].length ≤ c.rows g * c.cols g := by
    rw [List.length_singleton]
    omega
  rw [hlast] at hall hlin
  have hend : c.rows g * c.cols g - 1 + [ch].length = c.rows g * c.cols g := Nat.sub_add_cancel hpos
  rw [hend, Nat.mod_self] at hlin
  obtain ⟨rfl, rfl⟩ := eq_zero_of_linear_zero hcx hlin
  refine ⟨_, _, hall, ?_, ?_, fun a ha => ⟨?_, ?_⟩⟩
  · exact Memory.read_writeRing_inside _ _ _ 0 _ ch hchars (hfit ch) rfl
  · exact Memory.read_writeRing_inside _ _ _ 0 _ scr.defattr hattrs (hfit scr.defattr) rfl
  · exact Memory.read_writeRing_outside _ _ _ a [ch] (hfit ch) (by rw [List.length_singleton]; omega)
  · exact Memory.read_writeRing_outside _ _ _ a [scr.defattr] (hfit _) (by rw [List.length_singleton]; omega)

/-! ### What a command writes -/

/-- The command whose register a micro-step writes: the only one that has this micro-step. The other micro-steps write
cells and the cursor and belong to several commands. -/
def Micro.ownCommand : Micro → Option Instr
  | .setFont v => some (.setFont v)
  | .setAttr v => some (.setAttr v)
  | .showCursor => some .showCursor
  | .hideCursor => some .hideCursor
  | .clearCell _ _ => none
  | .home => none
  | .setCursor _ _ => none
  | .putChar _ => none

/-- A micro-step that writes a register stands only in the list of its own command. -/
theorem ownCommand_of_mem_microsOf (c : Config) (g : InstCfg) (i j : Instr) (m : Micro) (hm : m ∈ microsOf c g i)
    (hj : m.ownCommand = some j) : i = j := by
  have hprint (t : List Byte) (h : m ∈ printMicros t) : i = j := by
    obtain ⟨ch, -, rfl⟩ := List.mem_map.1 h
    cases hj
  have hprintAt (x y : Nat) (t : List Byte) (h : m ∈ printAtMicros x y t) : i = j := by
    obtain rfl | h := List.mem_cons.1 h
    · cases hj
    · exact hprint t h
  cases i with
  | clear =>
    obtain h | h := List.mem_append.1 hm
    · obtain ⟨r, -, h⟩ := List.mem_flatMap.1 h
      obtain ⟨k, -, rfl⟩ := List.mem_map.1 h
      cases hj
    · rw [List.mem_singleton.1 h] at hj
      cases hj
  | setFont v => rw [List.mem_singleton.1 hm] at hj; exact Option.some_inj.1 hj
  | setAttr v => rw [List.mem_singleton.1 hm] at hj; exact Option.some_inj.1 hj
  | showCursor => rw [List.mem_singleton.1 hm] at hj; exact Option.some_inj.1 hj
  | hideCursor => rw [List.mem_singleton.1 hm] at hj; exact Option.some_inj.1 hj
  | setCursor x y => rw [List.mem_singleton.1 hm] at hj; cases hj
  | print t => exact hprint t hm
  | printAt x y t => exact hprintAt _ _ t hm
  | printRight y t => exact hprintAt _ _ _ hm
  | printCenter y t => exact hprintAt _ _ _ hm
  | rasterize inst line ratio => cases hm
  | frameTick => cases hm

/-- What every micro-step of a list leaves as it is, the list leaves as it is. -/
theorem performAll_keeps {α : Type} (field : Screen → α) (c : Config) (g : InstCfg) (ms : List Micro)
    (scr scr' : Screen) (hstep : ∀ m ∈ ms, ∀ a b, perform c g a m = some b → field b = field a)
    (h : performAll c g ms scr = some scr') : field scr' = field scr := by
  induction ms generalizing scr with
  | nil => rw [Option.some_inj.1 h]
  | cons m ms ih =>
    rw [performAll] at h
    split at h
    · cases h
    · rename_i scr1 hm
      rw [ih scr1 (fun m' hm' => hstep m' (List.mem_cons_of_mem m hm')) h]
      exact hstep m List.mem_cons_self scr scr1 hm

/-- Settles O44: of a command's micro-steps only its own writes its register, and the commands that write no cell have
one micro-step. -/
theorem wholeCommandsWriteOnlyTheirRegisters : Obligations.WholeCommandsWriteOnlyTheirRegisters := by
  intro c g scr scr' i h
  have hown (j : Instr) (m : Micro) (hj : m.ownCommand = some j) (hm : m ∈ microsOf c g i) : i = j :=
    ownCommand_of_mem_microsOf c g i j m hm hj
  refine ⟨?_, ?_, fun hi => ?_, fun hi => ?_, fun hshow hhide => ?_, fun x y v hi => ?_, fun v hi => ?_⟩
  · exact performAll_keeps Screen.rx c g _ scr scr' (fun m _ a b hab => (perform_keeps_port c g a b m hab).1) h
  · exact performAll_keeps Screen.busy c g _ scr scr' (fun m _ a b hab => (perform_keeps_port c g a b m hab).2) h
  · refine performAll_keeps Screen.fontsel c g _ scr scr' (fun m hm a b hab => ?_) h
    obtain ⟨-, -, hfont, -⟩ := perform_frame c g a b m hab
    exact hfont fun v hv => hi v (hown _ m (hv ▸ rfl) hm)
  · refine performAll_keeps Screen.defattr c g _ scr scr' (fun m hm a b hab => ?_) h
    obtain ⟨-, -, -, hattr, -⟩ := perform_frame c g a b m hab
    exact hattr fun v hv => hi v (hown _ m (hv ▸ rfl) hm)
  · refine performAll_keeps Screen.curvis c g _ scr scr' (fun m hm a b hab => ?_) h
    obtain ⟨-, -, -, -, hvis⟩ := perform_frame c g a b m hab
    exact hvis (fun hm' => hshow (hown _ m (hm' ▸ rfl) hm)) fun hm' => hhide (hown _ m (hm' ▸ rfl) hm)
  · obtain rfl | rfl | rfl | rfl | rfl := hi <;> cases h <;> exact ⟨rfl, rfl⟩
  · obtain rfl | rfl | rfl | rfl := hi <;> cases h <;> exact ⟨rfl, rfl⟩

end Sys2Proof.Machine
end
